-- ==== Sys2Proof/Word.lean ====
section
/-! DEFINITION. The word types of the interface: 32-bit command and response words and the 24-bit
operand field (30_encoding.md R51, R55). Registers are bit vectors of their own widths, see
Config.lean. -/

namespace Sys2Proof

/-- A command word `cmd[31:0]` or a response word `rsp[31:0]`; bit 0 is the bit of weight 2^0
(R51, R55; CMD_W = RSP_W = 32). -/
abbrev Word := BitVec 32

/-- The 24-bit field `cmd[23:0]` (R51; ARG_W = 24). -/
abbrev Arg := BitVec 24

end Sys2Proof
end

