-- ==== Sys2Proof/Config.lean ====
section
/-! DEFINITION. What is fixed for the machine (the three registers and their widths, the operand
width, whether SHOW exists) and the values the spec leaves open, as constants with no body. -/

namespace Sys2Proof

/-- The three registers (00_scope.md R2). They do not alias (10_state.md R16). -/
inductive Reg where
  | x
  | y
  | z
deriving DecidableEq, Repr

/-- N_r, the width of register r (R2: 19, 22, 23); immutable (R12). -/
def Reg.width : Reg → Nat
  | .x => 19
  | .y => 22
  | .z => 23

namespace Config

/-- ARG_W: the width of a command's numeric operand (R53). -/
def argWidth : Nat := 24

/-- HAS_SHOW of the block that `step` runs. DESIGN CHOICE, log entry 2: the spec leaves it open and
its opcode table lists SHOW; the decoder and the port take it as an argument, so both blocks can be
spoken of. -/
def hasShow : Bool := true

/-- RESET_X: the contents of X after the n-th reset (10_state.md R24: any value, not necessarily the
same after two resets). DESIGN CHOICE, log entry 1: a free value. -/
opaque resetX : Nat → BitVec 19

/-- RESET_Y, as `resetX` (R24, log entry 1). -/
opaque resetY : Nat → BitVec 22

/-- RESET_Z, as `resetX` (R24, log entry 1). -/
opaque resetZ : Nat → BitVec 23

/-- How many keystream bits the command that the n-th reset abandons may already have put on the
channel (70_reset_and_hazards.md R120 leaves it open); the command's own number of bits bounds it
where it is used. DESIGN CHOICE, log entry 7: a free value. -/
opaque abandonedBits : Nat → Nat

end Config

end Sys2Proof
end

