-- ==== Sys2Proof/Syntax.lean ====
section
/-! DEFINITION. The 23 commands as syntax, one constructor per row of the opcode table
(30_encoding.md R50), and the three-register families as functions of the register. -/

namespace Sys2Proof

/-- A decoded command. Numeric operands are unsigned integers (R53); the ones a command word can
carry are below 2^24, see `Instr.wellFormed`. A bit operand `true` is 1. -/
inductive Instr where
  | loadX (initialValue : Nat)
  | loadY (initialValue : Nat)
  | loadZ (initialValue : Nat)
  | atX (pos : Nat)
  | atY (pos : Nat)
  | atZ (pos : Nat)
  | setX (pos : Nat) (value : Bool)
  | setY (pos : Nat) (value : Bool)
  | setZ (pos : Nat) (value : Bool)
  | peekX
  | peekY
  | peekZ
  | shiftX (newBit : Bool)
  | shiftY (newBit : Bool)
  | shiftZ (newBit : Bool)
  | updateX
  | updateY
  | updateZ
  | showX
  | showY
  | showZ
  | step
  | gen (length : Nat)
deriving DecidableEq, Repr

namespace Instr

/-- LOAD.r, the family over r (R50). -/
def loadOf : Reg → Nat → Instr
  | .x, v => .loadX v
  | .y, v => .loadY v
  | .z, v => .loadZ v

/-- AT.r, the family over r (R50). -/
def atOf : Reg → Nat → Instr
  | .x, p => .atX p
  | .y, p => .atY p
  | .z, p => .atZ p

/-- SET.r, the family over r (R50); position first, bit second (R57). -/
def setOf : Reg → Nat → Bool → Instr
  | .x, p, b => .setX p b
  | .y, p, b => .setY p b
  | .z, p, b => .setZ p b

/-- PEEK.r, the family over r (R50). -/
def peekOf : Reg → Instr
  | .x => .peekX
  | .y => .peekY
  | .z => .peekZ

/-- SHIFT.r, the family over r (R50). -/
def shiftOf : Reg → Bool → Instr
  | .x, b => .shiftX b
  | .y, b => .shiftY b
  | .z, b => .shiftZ b

/-- UPDATE.r, the family over r (R50). -/
def updateOf : Reg → Instr
  | .x => .updateX
  | .y => .updateY
  | .z => .updateZ

/-- SHOW.r, the family over r (R50). -/
def showOf : Reg → Instr
  | .x => .showX
  | .y => .showY
  | .z => .showZ

/-- The mnemonic of the command's row in the opcode table. -/
def mnemonic : Instr → String
  | .loadX _ => "LOAD.X"
  | .loadY _ => "LOAD.Y"
  | .loadZ _ => "LOAD.Z"
  | .atX _ => "AT.X"
  | .atY _ => "AT.Y"
  | .atZ _ => "AT.Z"
  | .setX _ _ => "SET.X"
  | .setY _ _ => "SET.Y"
  | .setZ _ _ => "SET.Z"
  | .peekX => "PEEK.X"
  | .peekY => "PEEK.Y"
  | .peekZ => "PEEK.Z"
  | .shiftX _ => "SHIFT.X"
  | .shiftY _ => "SHIFT.Y"
  | .shiftZ _ => "SHIFT.Z"
  | .updateX => "UPDATE.X"
  | .updateY => "UPDATE.Y"
  | .updateZ => "UPDATE.Z"
  | .showX => "SHOW.X"
  | .showY => "SHOW.Y"
  | .showZ => "SHOW.Z"
  | .step => "STEP"
  | .gen _ => "GEN"

end Instr

end Sys2Proof
end

