-- ==== Sys2Proof/WellFormed.lean ====
section
/-! DEFINITION. Which commands a command word can carry: a numeric operand fits the 24-bit field
(30_encoding.md R53, R59), and SHOW exists only where HAS_SHOW does (R54). -/

namespace Sys2Proof

/-- The operand fits the field arg: 0 to 2^24 - 1 (R53). -/
def argFits (v : Nat) : Bool := decide (v < 2 ^ Config.argWidth)

/-- The command has a word in the block whose parameter HAS_SHOW is `hasShow`. -/
def Instr.wellFormed (hasShow : Bool) : Instr → Bool
  | .loadX v => argFits v
  | .loadY v => argFits v
  | .loadZ v => argFits v
  | .atX p => argFits p
  | .atY p => argFits p
  | .atZ p => argFits p
  | .setX p _ => argFits p
  | .setY p _ => argFits p
  | .setZ p _ => argFits p
  | .peekX => true
  | .peekY => true
  | .peekZ => true
  | .shiftX _ => true
  | .shiftY _ => true
  | .shiftZ _ => true
  | .updateX => true
  | .updateY => true
  | .updateZ => true
  | .showX => hasShow
  | .showY => hasShow
  | .showZ => hasShow
  | .step => true
  | .gen n => argFits n

end Sys2Proof
end

