-- ==== Sys2Proof/Decode.lean ====
section
/-! DEFINITION. The command word: its fields (30_encoding.md R51), the decoder, total on all 2^32
words and answering `none` for every illegal one (R54), the encoder beside it (R59), and the opcode
table's mask and match (R52) as a second reading of the same encoding. -/

namespace Sys2Proof

/-- The fields of a command word (R51). -/
structure Fields where
  /-- cmd[31:28] -/
  op : BitVec 4
  /-- cmd[27:26] -/
  sel : BitVec 2
  /-- cmd[25], must be 0 -/
  rsv : Bool
  /-- cmd[24] -/
  v : Bool
  /-- cmd[23:0] -/
  arg : Arg
deriving DecidableEq, Repr

/-- Split a word into its fields (R51). -/
def Fields.ofWord (w : Word) : Fields where
  op := w.extractLsb' 28 4
  sel := w.extractLsb' 26 2
  rsv := w.getLsbD 25
  v := w.getLsbD 24
  arg := w.extractLsb' 0 24

/-- Put the fields together, op in the most significant place (R51). -/
def Fields.toWord (f : Fields) : Word :=
  f.op ++ (f.sel ++ (BitVec.ofBool f.rsv ++ (BitVec.ofBool f.v ++ f.arg)))

/-- The nine kinds of command (R50). -/
inductive Op where
  | opLoad
  | opAt
  | opSet
  | opPeek
  | opShift
  | opUpdate
  | opShow
  | opStep
  | opGen
deriving DecidableEq, Repr

/-- The operation codes (R52). -/
def Op.code : Op → BitVec 4
  | .opLoad => 0x1
  | .opAt => 0x2
  | .opSet => 0x3
  | .opPeek => 0x4
  | .opShift => 0x5
  | .opUpdate => 0x6
  | .opShow => 0x7
  | .opStep => 0x8
  | .opGen => 0x9

/-- The operation a code names; 0x0 and 0xA to 0xF are not assigned (R52). -/
def Op.ofCode (c : BitVec 4) : Option Op :=
  if c = 0x1 then some .opLoad
  else if c = 0x2 then some .opAt
  else if c = 0x3 then some .opSet
  else if c = 0x4 then some .opPeek
  else if c = 0x5 then some .opShift
  else if c = 0x6 then some .opUpdate
  else if c = 0x7 then some .opShow
  else if c = 0x8 then some .opStep
  else if c = 0x9 then some .opGen
  else none

/-- The selector of a register: 0 names X, 1 names Y, 2 names Z (R51, R53). -/
def Reg.sel : Reg → BitVec 2
  | .x => 0
  | .y => 1
  | .z => 2

/-- The register a selector names; 3 is reserved (R51). -/
def Reg.ofSel (c : BitVec 2) : Option Reg :=
  if c = 0 then some .x
  else if c = 1 then some .y
  else if c = 2 then some .z
  else none

/-- A field that a command does not use must be 0 (R51, R54): the answer where it is. -/
def ifUnused {α : Type} (unused : Bool) (answer : Option α) : Option α :=
  if unused then answer else none

/-- Decode one kind of command from its fields: which fields it uses, and that the others are 0
(R51 to R54). SHOW is illegal where HAS_SHOW is false (R54). -/
def decodeOp (hasShow : Bool) (f : Fields) : Op → Option Instr
  | .opLoad => ifUnused (!f.v) ((Reg.ofSel f.sel).map fun r => .loadOf r f.arg.toNat)
  | .opAt => ifUnused (!f.v) ((Reg.ofSel f.sel).map fun r => .atOf r f.arg.toNat)
  | .opSet => (Reg.ofSel f.sel).map fun r => .setOf r f.arg.toNat f.v
  | .opPeek => ifUnused (!f.v && f.arg == 0) ((Reg.ofSel f.sel).map .peekOf)
  | .opShift => ifUnused (f.arg == 0) ((Reg.ofSel f.sel).map fun r => .shiftOf r f.v)
  | .opUpdate => ifUnused (!f.v && f.arg == 0) ((Reg.ofSel f.sel).map .updateOf)
  | .opShow => ifUnused (hasShow && !f.v && f.arg == 0) ((Reg.ofSel f.sel).map .showOf)
  | .opStep => ifUnused (f.sel == 0 && !f.v && f.arg == 0) (some .step)
  | .opGen => ifUnused (f.sel == 0 && !f.v) (some (.gen f.arg.toNat))

/-- The command that a word's fields encode, or none (R54). -/
def decodeFields (hasShow : Bool) (f : Fields) : Option Instr :=
  ifUnused (!f.rsv) ((Op.ofCode f.op).bind (decodeOp hasShow f))

/-- The decoder of the block whose parameter HAS_SHOW is `hasShow`: `none` is IllegalCommand
(R54, 60_exceptions.md R102). -/
def decode (hasShow : Bool) (w : Word) : Option Instr := decodeFields hasShow (Fields.ofWord w)

/-- The fields of a command (R59: "v and arg 0 where the command has no such operand"). -/
def Instr.fields : Instr → Fields
  | .loadX v => ⟨Op.code .opLoad, Reg.sel .x, false, false, BitVec.ofNat 24 v⟩
  | .loadY v => ⟨Op.code .opLoad, Reg.sel .y, false, false, BitVec.ofNat 24 v⟩
  | .loadZ v => ⟨Op.code .opLoad, Reg.sel .z, false, false, BitVec.ofNat 24 v⟩
  | .atX p => ⟨Op.code .opAt, Reg.sel .x, false, false, BitVec.ofNat 24 p⟩
  | .atY p => ⟨Op.code .opAt, Reg.sel .y, false, false, BitVec.ofNat 24 p⟩
  | .atZ p => ⟨Op.code .opAt, Reg.sel .z, false, false, BitVec.ofNat 24 p⟩
  | .setX p b => ⟨Op.code .opSet, Reg.sel .x, false, b, BitVec.ofNat 24 p⟩
  | .setY p b => ⟨Op.code .opSet, Reg.sel .y, false, b, BitVec.ofNat 24 p⟩
  | .setZ p b => ⟨Op.code .opSet, Reg.sel .z, false, b, BitVec.ofNat 24 p⟩
  | .peekX => ⟨Op.code .opPeek, Reg.sel .x, false, false, 0⟩
  | .peekY => ⟨Op.code .opPeek, Reg.sel .y, false, false, 0⟩
  | .peekZ => ⟨Op.code .opPeek, Reg.sel .z, false, false, 0⟩
  | .shiftX b => ⟨Op.code .opShift, Reg.sel .x, false, b, 0⟩
  | .shiftY b => ⟨Op.code .opShift, Reg.sel .y, false, b, 0⟩
  | .shiftZ b => ⟨Op.code .opShift, Reg.sel .z, false, b, 0⟩
  | .updateX => ⟨Op.code .opUpdate, Reg.sel .x, false, false, 0⟩
  | .updateY => ⟨Op.code .opUpdate, Reg.sel .y, false, false, 0⟩
  | .updateZ => ⟨Op.code .opUpdate, Reg.sel .z, false, false, 0⟩
  | .showX => ⟨Op.code .opShow, Reg.sel .x, false, false, 0⟩
  | .showY => ⟨Op.code .opShow, Reg.sel .y, false, false, 0⟩
  | .showZ => ⟨Op.code .opShow, Reg.sel .z, false, false, 0⟩
  | .step => ⟨Op.code .opStep, 0, false, false, 0⟩
  | .gen n => ⟨Op.code .opGen, 0, false, false, BitVec.ofNat 24 n⟩

/-- The encoder: the word of a well-formed command (R59). -/
def encode (i : Instr) : Word := i.fields.toWord

/-- One row of the opcode map of R52 (opcode_table.json). -/
structure Row where
  mnemonic : String
  mask : Word
  code : Word
deriving DecidableEq, Repr

/-- The three rows of a family that takes a register selector: the X row's match, the selector
added (R52). -/
def rowsOfFamily (nameX nameY nameZ : String) (mask codeX : Word) : List Row :=
  [⟨nameX, mask, codeX⟩, ⟨nameY, mask, codeX + 0x04000000⟩, ⟨nameZ, mask, codeX + 0x08000000⟩]

/-- The opcode map of R52, a row per (op, sel) pair: 23 rows. -/
def opcodeTable : List Row :=
  rowsOfFamily "LOAD.X" "LOAD.Y" "LOAD.Z" 0xFF000000 0x10000000
    ++ rowsOfFamily "AT.X" "AT.Y" "AT.Z" 0xFF000000 0x20000000
    ++ rowsOfFamily "SET.X" "SET.Y" "SET.Z" 0xFE000000 0x30000000
    ++ rowsOfFamily "PEEK.X" "PEEK.Y" "PEEK.Z" 0xFFFFFFFF 0x40000000
    ++ rowsOfFamily "SHIFT.X" "SHIFT.Y" "SHIFT.Z" 0xFEFFFFFF 0x50000000
    ++ rowsOfFamily "UPDATE.X" "UPDATE.Y" "UPDATE.Z" 0xFFFFFFFF 0x60000000
    ++ rowsOfFamily "SHOW.X" "SHOW.Y" "SHOW.Z" 0xFFFFFFFF 0x70000000
    ++ [⟨"STEP", 0xFFFFFFFF, 0x80000000⟩]
    ++ [⟨"GEN", 0xFF000000, 0x90000000⟩]

/-- A word matches a row (R52). -/
def Row.fits (row : Row) (w : Word) : Bool := w &&& row.mask == row.code

/-- The 32-bit word whose bits, numbered as the opcode table numbers them, are the low `nbits` of
`w`; every bit above is 0. -/
def tableWord (nbits w : Nat) : Word := BitVec.ofNat 32 (w % 2 ^ nbits)

/-- What the decoder of the block that `step` runs reads from that word. -/
def decodeTableWord (nbits w : Nat) : Option Instr := decode Config.hasShow (tableWord nbits w)

end Sys2Proof
end

