-- ==== Sys2Proof/Machine/State.lean ====
section
/-! DEFINITION. The state: the 64 bits the spec gives the block (10_state.md R10), the record of what
it has put out, and what a step is given, which `step` needs a place for. The stops of a step and the
state after reset. -/

namespace Sys2Proof.Machine

/-- The complete architectural state of the block (R10): three registers, 64 bits. Logical position
p of a register of width N is the bit of weight 2^(N-1-p) (00_scope.md R4). Every pattern is a legal
content (R11). -/
structure Block where
  x : BitVec 19
  y : BitVec 22
  z : BitVec 23
deriving DecidableEq, Repr

/-- What the host can do to the block next (30_encoding.md section 5): the only two things are to
issue a command and to apply the pin rst (60_exceptions.md R103). DESIGN CHOICE, log entries 3
and 7. -/
inductive Input where
  /-- A command word on the command port, run to completion. -/
  | cmd (w : Word)
  /-- The pin rst, applied while the block is idle (70_reset_and_hazards.md R120). -/
  | rst
  /-- A command word on the command port, and the pin rst applied before its response (R120). -/
  | cmdThenRst (w : Word)
deriving DecidableEq, Repr

/-- The machine state: the block and the record of what it has put out. It has no field for the
command stream, a command's operands or the steps left in a GEN (R19). -/
structure Launch where
  /-- The 64 bits of R10. -/
  block : Block
  /-- The keystream since reset, first bit produced first (10_state.md R18); an observation. -/
  ks : List Bool
  /-- Bits delivered before the last reset: no longer part of `ks` (R120); an observation, log
  entry 7. -/
  ksBefore : List Bool
  /-- The response words given, first one first (30_encoding.md R55); an observation, log
  entry 5. -/
  rsps : List Word
  /-- How many resets have been applied: the index of the free reset values; the model's own, log
  entry 8. -/
  resets : Nat
deriving DecidableEq, Repr

/-- What `step` is given: the machine state and, beside it, the parameter of the step, what stands at
the block's input pins (30_encoding.md section 5). The command stream is the host's (R19, R20) and is
no part of it: `drive` takes the stream as a parameter and presents it one input at a time. Log
entry 3. -/
structure State extends Launch where
  /-- The one input at the pins now, none when the host issues nothing. A step takes it, so nothing of
  a command is here after the command's own step. -/
  port : Option Input
deriving DecidableEq, Repr

/-- Reasons for a step to stop in a fault. There are none: the spec's two faults (60_exceptions.md
R100, R102) are answered in the response word and the block goes on (R105, R106), so taking one is a
next state (log entry 6). -/
inductive Fault where
deriving DecidableEq, Repr

/-- Reasons for a step to be refused. -/
inductive Refusal where
  /-- Raised by an arm of `exec` whose command has no meaning yet; safe. No arm raises it. -/
  | notModelled (mnemonic : String)
deriving DecidableEq, Repr

/-- The register contents after the n-th reset: any values (R24), log entry 1. -/
def Block.atReset (n : Nat) : Block where
  x := Config.resetX n
  y := Config.resetY n
  z := Config.resetZ n

/-- The machine right after reset: registers unspecified, `ks` empty, nothing in progress (R24,
R120); nothing at the input pins. -/
def State.reset : State where
  block := Block.atReset 0
  ks := []
  ksBefore := []
  rsps := []
  resets := 0
  port := none

end Sys2Proof.Machine
end

