-- ==== Sys2Proof/Machine/Geometry.lean ====
section
/-! DEFINITION. The fixed positions of each register (00_scope.md R2, 20_memory.md R38): feedback
taps, control position, output tap. Constants of the hardware, not state (10_state.md R14, R15). -/

namespace Sys2Proof.Machine

/-- TAPS_r, the feedback taps as logical positions, in the order of the spec's list (R2, R14). -/
def taps : Reg → List Nat
  | .x => [18, 17, 16, 13]
  | .y => [21, 20]
  | .z => [22, 21, 20, 7]

/-- CTRL_r, the control-bit position of the majority vote (R2, R15). -/
def ctrl : Reg → Nat
  | .x => 8
  | .y => 10
  | .z => 10

/-- OUT_r = N_r - 1, the output tap and shift-in position (R2, R13). -/
def outTap (r : Reg) : Nat := r.width - 1

end Sys2Proof.Machine
end

