-- ==== Sys2Proof/Machine/Ops.lean ====
section
/-! DEFINITION. The shared operations: the bits of a register by logical position, the register
file, the responses and the keystream channel, taking a fault, taking a reset. -/

namespace Sys2Proof.Machine

/-- R[p]: the bit at logical position p, the bit of weight 2^(N-1-p) (00_scope.md R4). The spec
defines it for p < N only; outside, the function is total and no meaning calls it (log entry 13). -/
def bitAt {n : Nat} (v : BitVec n) (p : Nat) : Bool := decide (p < n) && v.getLsbD (n - 1 - p)

/-- R[p] <- b: one bit written, every other position unchanged, as the value-view formula of
40_bitregister.md R62. Outside the register nothing is written (log entry 13). -/
def setBitAt {n : Nat} (v : BitVec n) (p : Nat) (b : Bool) : BitVec n :=
  if p < n then
    (v &&& ~~~(BitVec.twoPow n (n - 1 - p))) ||| (if b then BitVec.twoPow n (n - 1 - p) else 0)
  else v

/-- The shift of 40_bitregister.md R64: every bit one place toward position 0, the bit at position 0
discarded, `newBit` at position N-1; in the value view, (2 val) mod 2^N + newBit. -/
def shiftIn {n : Nat} (v : BitVec n) (newBit : Bool) : BitVec n :=
  (v <<< 1) ||| (BitVec.ofBool newBit).setWidth n

/-- The contents of register r. -/
def Block.get (b : Block) : (r : Reg) → BitVec r.width
  | .x => b.x
  | .y => b.y
  | .z => b.z

/-- The block with register r replaced and the other two unchanged (10_state.md R16). -/
def Block.put (b : Block) : (r : Reg) → BitVec r.width → Block
  | .x, v => { b with x := v }
  | .y, v => { b with y := v }
  | .z, v => { b with z := v }

/-- r[p] of the block. -/
def Block.bit (b : Block) (r : Reg) (p : Nat) : Bool := bitAt (b.get r) p

/-- The state with register r replaced. -/
def State.putReg (s : State) (r : Reg) (v : BitVec r.width) : State :=
  { s with block := s.block.put r v }

/-- `emit` of 00_scope.md R5: bits put on the keystream channel, in the order given (30_encoding.md
R56). -/
def State.emit (s : State) (bits : List Bool) : State := { s with ks := s.ks ++ bits }

/-- The causes of a fault (60_exceptions.md R101). -/
inductive Cause where
  | outOfRange
  | illegalCommand
deriving DecidableEq, Repr

/-- Cause codes (R101). -/
def causeCode : Cause → BitVec 4
  | .outOfRange => 0x1
  | .illegalCommand => 0x2

/-- The kinds of response (30_encoding.md R55). -/
inductive Response where
  | ack
  | bit (b : Bool)
  | stepOut (key enX enY enZ : Bool)
  | regVal (r : Reg) (v : BitVec 23)
  | genDone (length : Arg)
  | faulted (cause : Cause) (info : Arg)
deriving DecidableEq, Repr

/-- The response word (R55, R101), its fields from the most significant. -/
def responseWord : Response → Word
  | .ack => 0x0#4 ++ 0#28
  | .bit b => 0x1#4 ++ (0#27 ++ BitVec.ofBool b)
  | .stepOut key enX enY enZ =>
    0x2#4 ++ (0#24 ++ (BitVec.ofBool enX ++ (BitVec.ofBool enY
      ++ (BitVec.ofBool enZ ++ BitVec.ofBool key))))
  | .regVal r v => 0x3#4 ++ (r.sel ++ (0#3 ++ v))
  | .genDone length => 0x4#4 ++ (0#4 ++ length)
  | .faulted cause info => 0xF#4 ++ (causeCode cause ++ info)

/-- Give the command's one response (R55). -/
def State.respond (s : State) (r : Response) : State :=
  { s with rsps := s.rsps ++ [responseWord r] }

/-- Taking a fault, the one shared operation: a FAULT response with cause and info, and nothing else
(60_exceptions.md R101, R105). Nothing is saved, no mode changes, control goes nowhere, and the next
command runs normally (R106): there is no return from it. -/
def takeFault (cause : Cause) (info : Arg) (s : State) : State :=
  s.respond (.faulted cause info)

/-- Taking a reset: registers unspecified, `ks` empty, the bits delivered so far no longer part of
it; no response (70_reset_and_hazards.md R120, 10_state.md R24). -/
def takeReset (s : State) : State :=
  { s with
    block := Block.atReset (s.resets + 1)
    ksBefore := s.ksBefore ++ s.ks
    ks := []
    resets := s.resets + 1 }

end Sys2Proof.Machine
end

