-- ==== Sys2Proof/Machine/Operands.lean ====
section
/-! DEFINITION. The operand forms: the truncation of an initial value, the range check of a
position, and the 24-bit field an operand came from. -/

namespace Sys2Proof.Machine

/-- trunc_N(v) as register contents: val(r) = v mod 2^N_r (00_scope.md R5, 20_memory.md R32). -/
def truncTo (r : Reg) (v : Nat) : BitVec r.width := BitVec.ofNat r.width v

/-- The one address check: pos is a position of r, that is not pos >= N_r (20_memory.md R34). No
wrap, no clamp. -/
def inRange (r : Reg) (pos : Nat) : Bool := decide (pos < r.width)

/-- The 24 bits of the command's arg field that a numeric operand came from (30_encoding.md R53,
60_exceptions.md R101). A command word's operand is below 2^24; log entry 9 for others. -/
def argField (v : Nat) : Arg := BitVec.ofNat 24 v

end Sys2Proof.Machine
end

