-- ==== Sys2Proof/Machine/Flags.lean ====
section
/-! DEFINITION. The block has no status flag (10_state.md R21). What stands here are the one-bit
values computed and consumed inside a command: feedback (41_register_variants.md R70), and the key
bit, control bits, majority and enables of a step (42_keystream_generator.md R80 to R83). -/

namespace Sys2Proof.Machine

/-- The XOR of the listed positions, cumulative, left to right (R70, R75). -/
def xorOfPositions {n : Nat} (v : BitVec n) (ps : List Nat) : Bool :=
  ps.foldl (fun acc p => acc ^^ bitAt v p) false

/-- fb_r, the feedback bit of contents `v` of register r (R70). -/
def feedback (r : Reg) (v : BitVec r.width) : Bool := xorOfPositions v (taps r)

/-- The keystream bit: the XOR of the three output taps (R80). -/
def keyBit (b : Block) : Bool :=
  (b.bit .x (outTap .x) ^^ b.bit .y (outTap .y)) ^^ b.bit .z (outTap .z)

/-- The control bit of register r (R81). -/
def controlBit (b : Block) (r : Reg) : Bool := b.bit r (ctrl r)

/-- Majority of three (R82). -/
def majority (cx cy cz : Bool) : Bool := (cx && cy) || (cy && cz) || (cz && cx)

/-- The majority of the block's three control bits (R82). -/
def vote (b : Block) : Bool := majority (controlBit b .x) (controlBit b .y) (controlBit b .z)

/-- en_r: register r is clocked in the step exactly when its control bit equals the majority
(R83). -/
def enabled (b : Block) (r : Reg) : Bool := controlBit b r == vote b

end Sys2Proof.Machine
end

