-- ==== Sys2Proof/Machine/BitRegister.lean ====
section
/-! DEFINITION. The BitRegister family: LOAD, AT, SET, PEEK, SHIFT, SHOW (40_bitregister.md R60 to
R65), each a shared operation over the register and one definition per command. -/

namespace Sys2Proof.Machine

/-- The result type of a meaning. -/
abbrev Result := Host.Outcome State Fault Refusal

/-- LOAD.r (R60): total. -/
def loadReg (r : Reg) (initialValue : Nat) (s : State) : Result :=
  .next ((s.putReg r (truncTo r initialValue)).respond .ack)

/-- AT.r (R61): the bit, or OutOfRange with the position as info (60_exceptions.md R100, R101). -/
def readBit (r : Reg) (pos : Nat) (s : State) : Result :=
  if inRange r pos then .next (s.respond (.bit (s.block.bit r pos)))
  else .next (takeFault .outOfRange (argField pos) s)

/-- SET.r (R62): the bit written, or OutOfRange and nothing written. -/
def writeBit (r : Reg) (pos : Nat) (value : Bool) (s : State) : Result :=
  if inRange r pos then .next ((s.putReg r (setBitAt (s.block.get r) pos value)).respond .ack)
  else .next (takeFault .outOfRange (argField pos) s)

/-- PEEK.r (R63): the bit at the output tap; total. -/
def peekReg (r : Reg) (s : State) : Result :=
  .next (s.respond (.bit (s.block.bit r (outTap r))))

/-- SHIFT.r (R64): total. -/
def shiftReg (r : Reg) (newBit : Bool) (s : State) : Result :=
  .next ((s.putReg r (shiftIn (s.block.get r) newBit)).respond .ack)

/-- SHOW.r (R65): zext_23(val(r)) in a REGVAL response (30_encoding.md R55), nothing changed. -/
def showReg (r : Reg) (s : State) : Result :=
  .next (s.respond (.regVal r ((s.block.get r).setWidth 23)))

/-- LOAD.X (R60). -/
def execLoadX (initialValue : Nat) (s : State) : Result := loadReg .x initialValue s
/-- LOAD.Y (R60). -/
def execLoadY (initialValue : Nat) (s : State) : Result := loadReg .y initialValue s
/-- LOAD.Z (R60). -/
def execLoadZ (initialValue : Nat) (s : State) : Result := loadReg .z initialValue s

/-- AT.X (R61). -/
def execAtX (pos : Nat) (s : State) : Result := readBit .x pos s
/-- AT.Y (R61). -/
def execAtY (pos : Nat) (s : State) : Result := readBit .y pos s
/-- AT.Z (R61). -/
def execAtZ (pos : Nat) (s : State) : Result := readBit .z pos s

/-- SET.X (R62). -/
def execSetX (pos : Nat) (value : Bool) (s : State) : Result := writeBit .x pos value s
/-- SET.Y (R62). -/
def execSetY (pos : Nat) (value : Bool) (s : State) : Result := writeBit .y pos value s
/-- SET.Z (R62). -/
def execSetZ (pos : Nat) (value : Bool) (s : State) : Result := writeBit .z pos value s

/-- PEEK.X (R63). -/
def execPeekX (s : State) : Result := peekReg .x s
/-- PEEK.Y (R63). -/
def execPeekY (s : State) : Result := peekReg .y s
/-- PEEK.Z (R63). -/
def execPeekZ (s : State) : Result := peekReg .z s

/-- SHIFT.X (R64). -/
def execShiftX (newBit : Bool) (s : State) : Result := shiftReg .x newBit s
/-- SHIFT.Y (R64). -/
def execShiftY (newBit : Bool) (s : State) : Result := shiftReg .y newBit s
/-- SHIFT.Z (R64). -/
def execShiftZ (newBit : Bool) (s : State) : Result := shiftReg .z newBit s

/-- SHOW.X (R65). -/
def execShowX (s : State) : Result := showReg .x s
/-- SHOW.Y (R65). -/
def execShowY (s : State) : Result := showReg .y s
/-- SHOW.Z (R65). -/
def execShowZ (s : State) : Result := showReg .z s

end Sys2Proof.Machine
end

