-- ==== Sys2Proof/Machine/Variants.lean ====
section
/-! DEFINITION. The register variants: the feedback shift controller and UPDATE.X, UPDATE.Y,
UPDATE.Z (41_register_variants.md R70 to R74). -/

namespace Sys2Proof.Machine

/-- `updateState()` on contents `v` of register r: the feedback bit from the pre-shift contents,
then the shift (R71 to R74). -/
def clocked (r : Reg) (v : BitVec r.width) : BitVec r.width := shiftIn v (feedback r v)

/-- UPDATE.r: clock register r once; total. -/
def updateReg (r : Reg) (s : State) : Result :=
  .next ((s.putReg r (clocked r (s.block.get r))).respond .ack)

/-- UPDATE.X (R71). -/
def execUpdateX (s : State) : Result := updateReg .x s
/-- UPDATE.Y (R72). -/
def execUpdateY (s : State) : Result := updateReg .y s
/-- UPDATE.Z (R73). -/
def execUpdateZ (s : State) : Result := updateReg .z s

end Sys2Proof.Machine
end

