-- ==== Sys2Proof/Machine/Keystream.lean ====
section
/-! DEFINITION. The keystream generator: conditional clocking, STEP and GEN (42_keystream_generator.md
R84 to R87). -/

namespace Sys2Proof.Machine

/-- Register r after the step: clocked once if enabled, else held (R84). -/
def stepReg (b : Block) (r : Reg) : BitVec r.width :=
  if enabled b r then clocked r (b.get r) else b.get r

/-- The block after one step; every read is of the pre-clock block (R84, R86). -/
def stepBlock (b : Block) : Block where
  x := stepReg b .x
  y := stepReg b .y
  z := stepReg b .z

/-- The block after n steps (R87). -/
def blockAfter : Nat → Block → Block
  | 0, b => b
  | n + 1, b => blockAfter n (stepBlock b)

/-- The key bits of n steps, first one first (R87, R89). -/
def keysOf : Nat → Block → List Bool
  | 0, _ => []
  | n + 1, b => keyBit b :: keysOf n (stepBlock b)

/-- STEP (R86): emit the key bit, clock the enabled registers, answer key and enables; total. -/
def execStep (s : State) : Result :=
  .next
    (({ s.emit [keyBit s.block] with block := stepBlock s.block }).respond
      (.stepOut (keyBit s.block) (enabled s.block .x) (enabled s.block .y) (enabled s.block .z)))

/-- GEN (R87): `length` steps, their key bits on the channel, then GENDONE; total. -/
def execGen (length : Nat) (s : State) : Result :=
  .next
    (({ s.emit (keysOf length s.block) with block := blockAfter length s.block }).respond
      (.genDone (argField length)))

end Sys2Proof.Machine
end

