-- ==== Sys2Proof/Machine/Dispatch.lean ====
section
/-! DEFINITION. One arm per command. -/

namespace Sys2Proof.Machine

def exec (i : Instr) (s : State) : Host.Outcome State Fault Refusal :=
  match i with
  | .loadX initialValue => Sys2Proof.Machine.execLoadX initialValue s
  | .loadY initialValue => Sys2Proof.Machine.execLoadY initialValue s
  | .loadZ initialValue => Sys2Proof.Machine.execLoadZ initialValue s
  | .atX pos => Sys2Proof.Machine.execAtX pos s
  | .atY pos => Sys2Proof.Machine.execAtY pos s
  | .atZ pos => Sys2Proof.Machine.execAtZ pos s
  | .setX pos value => Sys2Proof.Machine.execSetX pos value s
  | .setY pos value => Sys2Proof.Machine.execSetY pos value s
  | .setZ pos value => Sys2Proof.Machine.execSetZ pos value s
  | .peekX => Sys2Proof.Machine.execPeekX s
  | .peekY => Sys2Proof.Machine.execPeekY s
  | .peekZ => Sys2Proof.Machine.execPeekZ s
  | .shiftX newBit => Sys2Proof.Machine.execShiftX newBit s
  | .shiftY newBit => Sys2Proof.Machine.execShiftY newBit s
  | .shiftZ newBit => Sys2Proof.Machine.execShiftZ newBit s
  | .updateX => Sys2Proof.Machine.execUpdateX s
  | .updateY => Sys2Proof.Machine.execUpdateY s
  | .updateZ => Sys2Proof.Machine.execUpdateZ s
  | .showX => Sys2Proof.Machine.execShowX s
  | .showY => Sys2Proof.Machine.execShowY s
  | .showZ => Sys2Proof.Machine.execShowZ s
  | .step => Sys2Proof.Machine.execStep s
  | .gen length => Sys2Proof.Machine.execGen length s

end Sys2Proof.Machine
end

