-- ==== Sys2Proof/Machine/Port.lean ====
section
/-! DEFINITION. The command port and the pin rst: what one input of the host does, for the block
whose parameter HAS_SHOW is given (30_encoding.md R51, R54; 70_reset_and_hazards.md R120, R127). -/

namespace Sys2Proof.Machine

/-- One command word accepted on the port: decoded first, an illegal word answered IllegalCommand
with its low 24 bits (60_exceptions.md R101, R102, R104), a legal one executed. -/
def issue (hasShow : Bool) (w : Word) (s : State) : Result :=
  match decode hasShow w with
  | some i => exec i s
  | none => .next (takeFault .illegalCommand (Fields.ofWord w).arg s)

/-- The bits a command puts on the keystream channel, run to completion: one for STEP, `length` for
GEN, none for any other (30_encoding.md R56). -/
def channelBits (i : Instr) (b : Block) : List Bool :=
  match i with
  | .loadX _ => []
  | .loadY _ => []
  | .loadZ _ => []
  | .atX _ => []
  | .atY _ => []
  | .atZ _ => []
  | .setX _ _ => []
  | .setY _ _ => []
  | .setZ _ _ => []
  | .peekX => []
  | .peekY => []
  | .peekZ => []
  | .shiftX _ => []
  | .shiftY _ => []
  | .shiftZ _ => []
  | .updateX => []
  | .updateY => []
  | .updateZ => []
  | .showX => []
  | .showY => []
  | .showZ => []
  | .step => keysOf 1 b
  | .gen length => keysOf length b

/-- Reset applied before the command's response (R120): the command is abandoned without one; the
bits it had already put on the channel stay delivered, how many is a free value (log entry 7). -/
def abandon (hasShow : Bool) (w : Word) (s : State) : State :=
  match decode hasShow w with
  | some i => takeReset (s.emit ((channelBits i s.block).take (Config.abandonedBits s.resets)))
  | none => takeReset s

/-- What one input does. -/
def takeInput (hasShow : Bool) (inp : Input) (s : State) : Result :=
  match inp with
  | .cmd w => issue hasShow w s
  | .rst => .next (takeReset s)
  | .cmdThenRst w => .next (abandon hasShow w s)

/-- The state with this input at the pins: the host issues it (R20). -/
def State.present (s : State) (inp : Input) : State := { s with port := some inp }

/-- The state with nothing at the pins: the input has been taken. -/
def State.idle (s : State) : State := { s with port := none }

/-- One step of the block whose parameter HAS_SHOW is `hasShow`: it takes the input at the pins; with
none it idles, and idling changes no state (60_exceptions.md section 12). -/
def stepOf (hasShow : Bool) (s : State) : Result :=
  match s.port with
  | none => .next s
  | some inp => takeInput hasShow inp s.idle

/-- The run of a stream of inputs, which is the host's and a parameter here (10_state.md R19): each is
presented when the one before has completed (20_memory.md R39, 70_reset_and_hazards.md R127). -/
def drive (hasShow : Bool) : List Input → State → Result
  | [], s => .next s
  | inp :: rest, s =>
    match stepOf hasShow (s.present inp) with
    | .next t => drive hasShow rest t
    | .fault f => .fault f
    | .refused f => .refused f

end Sys2Proof.Machine
end

