-- ==== Sys2Proof/Machine/Step.lean ====
section
/-! DEFINITION. The step of the machine, and the placing of a command word at its input pins. -/

namespace Sys2Proof.Machine

/-- One step: a whole command, or an idle step (00_scope.md section 6), in the block with HAS_SHOW as
Config has it (log entry 2). -/
def step (s : State) : Host.Outcome State Fault Refusal := stepOf Config.hasShow s

/-- The command word issued next: it stands at the pins, and nothing else changes (log entry 3). -/
def State.withFetchWord (s : State) (nbits w : Nat) : State :=
  s.present (.cmd (tableWord nbits w))

end Sys2Proof.Machine
end

