-- ==== Sys2Proof/Machine/Assembler.lean ====
section
/-! DEFINITION. The assembler: command text to command words (30_encoding.md R57, R58, R59). It is the
host's tool and touches no state of the block. What R57 leaves open of the text is log entry 12. -/

namespace Sys2Proof.Machine

/-- What a command line is made of (R57). -/
inductive Token where
  | name (cs : List Char)
  | number (v : Nat)
  | dot
  | comma
  | parOpen
  | parClose
deriving DecidableEq, Repr

/-- The value of a digit in a base up to 16. -/
def digitValue (base : Nat) (c : Char) : Option Nat :=
  let v :=
    if '0'.toNat ≤ c.toNat ∧ c.toNat ≤ '9'.toNat then c.toNat - '0'.toNat
    else if 'a'.toNat ≤ c.toNat ∧ c.toNat ≤ 'f'.toNat then c.toNat - 'a'.toNat + 10
    else if 'A'.toNat ≤ c.toNat ∧ c.toNat ≤ 'F'.toNat then c.toNat - 'A'.toNat + 10
    else 16
  if v < base then some v else none

/-- Digits, leftmost most significant, after a value read so far. -/
def digitsValue (base : Nat) (acc : Nat) : List Char → Option Nat
  | [] => some acc
  | c :: cs => (digitValue base c).bind fun d => digitsValue base (acc * base + d) cs

/-- A number: decimal, hexadecimal after `0x`, binary after `0b` (R57). -/
def numberValue : List Char → Option Nat
  | [] => none
  | ['0', 'x'] => none
  | ['0', 'b'] => none
  | '0' :: 'x' :: cs => digitsValue 16 0 cs
  | '0' :: 'b' :: cs => digitsValue 2 0 cs
  | cs => digitsValue 10 0 cs

/-- The token that a run of letters and digits makes: a number if it begins with a digit. -/
def wordToken (cs : List Char) : Option Token :=
  match cs with
  | [] => none
  | c :: _ => if (digitValue 10 c).isSome then (numberValue cs).map .number else some (.name cs)

/-- The tokens read so far with the run `run` ended. -/
def endRun (run : List Char) (rest : Option (List Token)) : Option (List Token) :=
  if run = [] then rest else (wordToken run).bind fun t => rest.map (t :: ·)

/-- The tokens of a line; `#` starts a comment (R57). `run` is the run of letters and digits read so
far. -/
def tokensOf (run : List Char) : List Char → Option (List Token)
  | [] => endRun run (some [])
  | c :: cs =>
    if c = '#' then endRun run (some [])
    else if c = ' ' ∨ c = '\t' ∨ c = '\r' then endRun run (tokensOf [] cs)
    else if c = '.' then endRun run ((tokensOf [] cs).map (.dot :: ·))
    else if c = ',' then endRun run ((tokensOf [] cs).map (.comma :: ·))
    else if c = '(' then endRun run ((tokensOf [] cs).map (.parOpen :: ·))
    else if c = ')' then endRun run ((tokensOf [] cs).map (.parClose :: ·))
    else tokensOf (run ++ [c]) cs

/-- The register a name names (R57). -/
def regNamed (cs : List Char) : Option Reg :=
  if cs = ['X'] then some .x
  else if cs = ['Y'] then some .y
  else if cs = ['Z'] then some .z
  else none

/-- A bit operand: 0 or 1, anything else refused (R59). -/
def bitOperand : Nat → Option Bool
  | 0 => some false
  | 1 => some true
  | _ => none

/-- `MNEMONIC.r` with no operand (R57). -/
def plainCommand (m : List Char) (r : Reg) : Option Instr :=
  if m = "PEEK".toList then some (.peekOf r)
  else if m = "UPDATE".toList then some (.updateOf r)
  else if m = "SHOW".toList then some (.showOf r)
  else none

/-- `MNEMONIC.r` with one operand (R57). -/
def oneOperandCommand (m : List Char) (r : Reg) (a : Nat) : Option Instr :=
  if m = "LOAD".toList then some (.loadOf r a)
  else if m = "AT".toList then some (.atOf r a)
  else if m = "SHIFT".toList then (bitOperand a).map (.shiftOf r)
  else none

/-- The source's `r.op()` (R57). -/
def plainCall (op : List Char) (r : Reg) : Option Instr :=
  if op = "peek".toList then some (.peekOf r)
  else if op = "updateState".toList then some (.updateOf r)
  else if op = "show".toList then some (.showOf r)
  else none

/-- The source's `r.op(a)` (R57). -/
def oneOperandCall (op : List Char) (r : Reg) (a : Nat) : Option Instr :=
  if op = "at".toList then some (.atOf r a)
  else if op = "shift".toList then (bitOperand a).map (.shiftOf r)
  else none

/-- NEWGEN: three LOADs and nothing else (R58, 42_keystream_generator.md R90). -/
def newgen (vx vy vz : Nat) : List Instr := [.loadX vx, .loadY vy, .loadZ vz]

/-- The commands a line names: one, three for NEWGEN, none for an empty line (R57, R58). -/
def commandsOf : List Token → Option (List Instr)
  | [] => some []
  | [.name m] => if m = "STEP".toList then some [.step] else none
  | [.name m, .number n] => if m = "GEN".toList then some [.gen n] else none
  | [.name m, .number a, .comma, .number b, .comma, .number c] =>
    if m = "NEWGEN".toList then some (newgen a b c) else none
  | [.name m, .dot, .name r] => (regNamed r).bind fun r => (plainCommand m r).map ([·])
  | [.name m, .dot, .name r, .number a] =>
    (regNamed r).bind fun r => (oneOperandCommand m r a).map ([·])
  | [.name m, .dot, .name r, .number a, .comma, .number b] =>
    if m = "SET".toList then
      (regNamed r).bind fun r => (bitOperand b).map fun v => [.setOf r a v]
    else none
  | [.name g, .parOpen, .number n, .parClose] =>
    if g = "generateKeystream".toList then some [.gen n] else none
  | [.name r, .dot, .name op, .parOpen, .parClose] =>
    (regNamed r).bind fun r => (plainCall op r).map ([·])
  | [.name r, .dot, .name op, .parOpen, .number a, .parClose] =>
    (regNamed r).bind fun r => (oneOperandCall op r a).map ([·])
  | [.name r, .dot, .name op, .parOpen, .number a, .comma, .number b, .parClose] =>
    if op = "set".toList then
      (regNamed r).bind fun r => (bitOperand b).map fun v => [.setOf r a v]
    else none
  | _ => none

/-- The words of commands, refused if one does not fit (R59). -/
def wordsOf (hasShow : Bool) (is : List Instr) : Option (List Word) :=
  if is.all (Instr.wellFormed hasShow) then some (is.map encode) else none

/-- Assemble one line. -/
def assembleLine (hasShow : Bool) (line : List Char) : Option (List Word) :=
  ((tokensOf [] line).bind commandsOf).bind (wordsOf hasShow)

/-- The lines of a text. -/
def linesOf (line : List Char) : List Char → List (List Char)
  | [] => [line]
  | c :: cs => if c = '\n' then line :: linesOf [] cs else linesOf (line ++ [c]) cs

/-- Assemble lines in order; one line refused refuses the text. -/
def assembleLines (hasShow : Bool) : List (List Char) → Option (List Word)
  | [] => some []
  | l :: ls =>
    (assembleLine hasShow l).bind fun ws => (assembleLines hasShow ls).map (ws ++ ·)

/-- Assemble a text, one command a line (R57). -/
def assemble (hasShow : Bool) (text : String) : Option (List Word) :=
  assembleLines hasShow (linesOf [] text.toList)

end Sys2Proof.Machine
end

