-- ==== Sys2Proof/Safety.lean ====
section
/-! DEFINITION. The terms in which claims are stated: response and command words by the weights of
their fields, what a command leaves alone, runs of commands, what a safe run is. -/

namespace Sys2Proof.Safety

open Sys2Proof.Machine

/-- A command word by the formula of 30_encoding.md R59. -/
def commandWord (op sel : Nat) (v : Bool) (arg : Arg) : Word :=
  (BitVec.ofNat 32 op <<< 28) ||| (BitVec.ofNat 32 sel <<< 26)
    ||| (BitVec.ofNat 32 v.toNat <<< 24) ||| arg.setWidth 32

/-- sel as a number: 0, 1, 2 for X, Y, Z (R53). -/
def selNumber : Reg → Nat
  | .x => 0
  | .y => 1
  | .z => 2

/-- ACK (R55): kind 0x0, every other bit 0. -/
def ackWord : Word := 0

/-- BIT (R55): kind 0x1, rsp[0] the bit. -/
def bitWord (b : Bool) : Word := BitVec.ofNat 32 (0x10000000 + b.toNat)

/-- STEPOUT (R55): kind 0x2, rsp[3], rsp[2], rsp[1] the enables of X, Y, Z, rsp[0] the key. -/
def stepOutWord (key enX enY enZ : Bool) : Word :=
  BitVec.ofNat 32 (0x20000000 + 8 * enX.toNat + 4 * enY.toNat + 2 * enZ.toNat + key.toNat)

/-- REGVAL (R55): kind 0x3, rsp[27:26] = sel, rsp[22:0] the value. -/
def regValWord (r : Reg) (val : Nat) : Word :=
  BitVec.ofNat 32 (0x30000000 + selNumber r * 0x4000000 + val)

/-- GENDONE (R55): kind 0x4, rsp[23:0] = length. -/
def genDoneWord (length : Nat) : Word := BitVec.ofNat 32 (0x40000000 + length % 0x1000000)

/-- FAULT (R55, 60_exceptions.md R101): kind 0xF, rsp[27:24] = cause code, rsp[23:0] = info. -/
def faultWord (cause info : Nat) : Word :=
  BitVec.ofNat 32 (0xF0000000 + cause * 0x1000000 + info % 0x1000000)

/-- rsp[31:28], the kind of a response (R55). -/
def kindOf (w : Word) : Nat := w.toNat / 0x10000000

/-- The response is a FAULT (R55). -/
def isFault (w : Word) : Bool := kindOf w == 0xF

/-- The words the block may answer with (R55, R101), each with what the rules say of its fields: a
STEPOUT has at least two enables (42_keystream_generator.md R85), a REGVAL a register's number and a
value of its width, a FAULT cause 1 or 2. -/
def LegalResponse (w : Word) : Prop :=
  w = ackWord
    ∨ (∃ b, w = bitWord b)
    ∨ (∃ key enX enY enZ, w = stepOutWord key enX enY enZ
        ∧ 2 ≤ enX.toNat + enY.toNat + enZ.toNat)
    ∨ (∃ r val, w = regValWord r val ∧ val < 2 ^ r.width)
    ∨ (∃ n, n < 2 ^ 24 ∧ w = genDoneWord n)
    ∨ (∃ cause info, (cause = 1 ∨ cause = 2) ∧ info < 2 ^ 24 ∧ w = faultWord cause info)

/-- The invariant of the response port: everything answered so far is a word of R55. -/
def ResponsesLegal (s : State) : Prop := ∀ w ∈ s.rsps, LegalResponse w

/-- The launch record of 60_exceptions.md section 5 (For the modeller): some command has faulted.
`rsps` is never cleared, so neither is this. -/
def faulted (s : State) : Bool := s.rsps.any isFault

/-- A safe state: no command has faulted (R106: a fault is "a programming defect"). -/
def Safe (s : State) : Prop := faulted s = false

/-- The command answered exactly this word (R55). -/
def answered (s t : State) (w : Word) : Prop := t.rsps = s.rsps ++ [w]

/-- The registers other than r are unchanged (10_state.md R16). -/
def othersKept (r : Reg) (s t : State) : Prop := ∀ q, q ≠ r → t.block.get q = s.block.get q

/-- Nothing but registers and responses has changed: the keystream, the bits delivered before it,
what stands at the input pins and the number of resets are as before. -/
def restKept (s t : State) : Prop :=
  t.ks = s.ks ∧ t.ksBefore = s.ksBefore ∧ t.port = s.port ∧ t.resets = s.resets

/-- As `restKept`, but for the keystream, which has gained exactly `bits` (R56). -/
def restKeptEmitting (bits : List Bool) (s t : State) : Prop :=
  t.ks = s.ks ++ bits ∧ t.ksBefore = s.ksBefore ∧ t.port = s.port ∧ t.resets = s.resets

/-- Commands one after another (20_memory.md R39). -/
def execAll : List Instr → State → Result
  | [], s => .next s
  | i :: is, s =>
    match exec i s with
    | .next t => execAll is t
    | .fault f => .fault f
    | .refused f => .refused f

/-- Command words one after another, legal or not (R39, R106). -/
def issueAll (hasShow : Bool) : List Word → State → Result
  | [], s => .next s
  | w :: ws, s =>
    match issue hasShow w s with
    | .next t => issueAll hasShow ws t
    | .fault f => .fault f
    | .refused f => .refused f

/-- What the host sees of a command from the outside, whatever the state held before: the block it
leaves, the response it appends and the bits it appends agree from `s` and from `s'`. -/
def sameEffect (s t s' t' : State) : Prop :=
  t.block = t'.block
    ∧ (∃ ws, t.rsps = s.rsps ++ ws ∧ t'.rsps = s'.rsps ++ ws)
    ∧ (∃ bits, t.ks = s.ks ++ bits ∧ t'.ks = s'.ks ++ bits)

/-- The lowest tap of each register: the feedback window of 41_register_variants.md R78 (b) runs from
here to the output tap. -/
def lowestTap : Reg → Nat
  | .x => 13
  | .y => 20
  | .z => 7

/-- The feedback window of contents `v` (R78 (b)): positions `lowestTap r` to N_r - 1, as a number. -/
def window (r : Reg) (v : BitVec r.width) : Nat := v.toNat % 2 ^ (r.width - lowestTap r)

/-- n UPDATEs in a row of contents `v` (R78). -/
def clockedTimes (r : Reg) : Nat → BitVec r.width → BitVec r.width
  | 0, v => v
  | n + 1, v => clockedTimes r n (clocked r v)

/-- The feedback bit of the UPDATE that follows n others (R78: f_(n+1)). -/
def feedbackAfter (r : Reg) (v : BitVec r.width) (n : Nat) : Bool :=
  feedback r (clockedTimes r n v)

/-- The response kinds a command may be answered with; an illegal word has none but FAULT (R55, and the
table of 60_exceptions.md after R108). -/
def answerKinds : Option Instr → List Nat
  | none => [0xF]
  | some (.loadX _) => [0x0]
  | some (.loadY _) => [0x0]
  | some (.loadZ _) => [0x0]
  | some (.atX _) => [0x1, 0xF]
  | some (.atY _) => [0x1, 0xF]
  | some (.atZ _) => [0x1, 0xF]
  | some (.setX _ _) => [0x0, 0xF]
  | some (.setY _ _) => [0x0, 0xF]
  | some (.setZ _ _) => [0x0, 0xF]
  | some .peekX => [0x1]
  | some .peekY => [0x1]
  | some .peekZ => [0x1]
  | some (.shiftX _) => [0x0]
  | some (.shiftY _) => [0x0]
  | some (.shiftZ _) => [0x0]
  | some .updateX => [0x0]
  | some .updateY => [0x0]
  | some .updateZ => [0x0]
  | some .showX => [0x3]
  | some .showY => [0x3]
  | some .showZ => [0x3]
  | some .step => [0x2]
  | some (.gen _) => [0x4]

/-- How many bits a command puts on the keystream channel: one for STEP, `length` for GEN, none for
any other command or for an illegal word (R56). -/
def bitCount : Option Instr → Nat
  | some .step => 1
  | some (.gen n) => n
  | _ => 0

/-- The operation code, selector, bit operand and numeric operand of a command as R51, R52 and R59 give
them, 0 where it has none. -/
def commandFields : Instr → Nat × Nat × Bool × Nat
  | .loadX v => (0x1, 0, false, v)
  | .loadY v => (0x1, 1, false, v)
  | .loadZ v => (0x1, 2, false, v)
  | .atX p => (0x2, 0, false, p)
  | .atY p => (0x2, 1, false, p)
  | .atZ p => (0x2, 2, false, p)
  | .setX p b => (0x3, 0, b, p)
  | .setY p b => (0x3, 1, b, p)
  | .setZ p b => (0x3, 2, b, p)
  | .peekX => (0x4, 0, false, 0)
  | .peekY => (0x4, 1, false, 0)
  | .peekZ => (0x4, 2, false, 0)
  | .shiftX b => (0x5, 0, b, 0)
  | .shiftY b => (0x5, 1, b, 0)
  | .shiftZ b => (0x5, 2, b, 0)
  | .updateX => (0x6, 0, false, 0)
  | .updateY => (0x6, 1, false, 0)
  | .updateZ => (0x6, 2, false, 0)
  | .showX => (0x7, 0, false, 0)
  | .showY => (0x7, 1, false, 0)
  | .showZ => (0x7, 2, false, 0)
  | .step => (0x8, 0, false, 0)
  | .gen n => (0x9, 0, false, n)

/-- The list of R54 over the fields op, sel, rsv, v and arg as numbers. -/
abbrev illegalFields (hasShow : Bool) (op sel rsv v arg : Nat) : Prop :=
  (op = 0 ∨ 0xA ≤ op)
    ∨ (sel = 3 ∧ 1 ≤ op ∧ op ≤ 7)
    ∨ (sel ≠ 0 ∧ (op = 8 ∨ op = 9))
    ∨ rsv = 1
    ∨ (v = 1 ∧ op ≠ 3 ∧ op ≠ 5)
    ∨ (arg ≠ 0 ∧ op ≠ 1 ∧ op ≠ 2 ∧ op ≠ 3 ∧ op ≠ 9)
    ∨ (op = 7 ∧ hasShow = false)

/-- The word is illegal by the list of R54, its fields taken at the places of R51. -/
abbrev illegalByR54 (hasShow : Bool) (w : Nat) : Prop :=
  illegalFields hasShow (w / 2 ^ 28) (w / 2 ^ 26 % 4) (w / 2 ^ 25 % 2) (w / 2 ^ 24 % 2) (w % 2 ^ 24)

/-- The lengths of the cycles of the window map (R78 (c)). -/
def cycleLengths : Reg → List Nat
  | .x => [15, 3]
  | .y => [3]
  | .z => [57337, 8191, 7]

end Sys2Proof.Safety
end

