-- ==== Sys2Proof/Certificates/Slice0/Obligations.lean ====
section
/-! DEFINITION. The statements for the provers. Register contents are spoken of by logical position
(`Block.bit`) and in the value view (`toNat`); responses and command words by the weights of their
fields (Safety.lean), not by the model's own layout functions. A statement over `loadOf r`, `atOf r`,
`setOf r`, `peekOf r`, `shiftOf r`, `updateOf r` or `showOf r` speaks of the three commands of that family. -/

open Sys2Proof Sys2Proof.Machine Sys2Proof.Safety

/-! Positions and the value view -/

/-- 00_scope.md R4: the bit at logical position p is the bit of weight 2^(N-1-p) of val(R), and val(R)
is the sum over p of R[p] * 2^(N-1-p). -/
def Obligations.PositionsAreBitWeights : Prop :=
  ∀ (b : Block) (r : Reg),
    (∀ p, p < r.width → b.bit r p = (b.get r).toNat.testBit (r.width - 1 - p))
    ∧ (b.get r).toNat
        = ((List.range r.width).map fun p => (b.bit r p).toNat * 2 ^ (r.width - 1 - p)).sum

/-! The BitRegister family -/

/-- 40_bitregister.md R60 and 20_memory.md R32, LOAD.X, LOAD.Y, LOAD.Z: val(r) = initialValue mod 2^N_r,
in both views; the other registers and the keystream unchanged; ACK; the encoding. -/
def Obligations.LoadKeepsLowBits : Prop :=
  ∀ (r : Reg),
    (∀ hasShow (a : Arg),
      decode hasShow (commandWord 0x1 (selNumber r) false a) = some (.loadOf r a.toNat))
    ∧ ∀ (V : Nat) (s : State), ∃ t, exec (.loadOf r V) s = .next t
      ∧ (t.block.get r).toNat = V % 2 ^ r.width
      ∧ (∀ p, p < r.width → t.block.bit r p = V.testBit (r.width - 1 - p))
      ∧ othersKept r s t ∧ restKept s t ∧ answered s t ackWord

/-- R61, AT.X, AT.Y, AT.Z: in range, the answer is the bit at the position; at pos >= N_r it is OutOfRange;
either way no state is written. pos is the 24-bit field arg: for every pos of it from N_r on the answer is
the FAULT word that 60_exceptions.md section 1 gives OutOfRange, cause 0x1 with pos as info. An operand no
field can hold is spoken of in `WideOperandsAnswerTheirLowBits`. -/
def Obligations.AtReadsOneBitOrFaults : Prop :=
  ∀ (r : Reg),
    (∀ hasShow (a : Arg),
      decode hasShow (commandWord 0x2 (selNumber r) false a) = some (.atOf r a.toNat))
    ∧ ∀ (pos : Nat) (s : State), ∃ t, exec (.atOf r pos) s = .next t
      ∧ t.block = s.block ∧ restKept s t
      ∧ (pos < r.width → answered s t (bitWord ((s.block.get r).toNat.testBit (r.width - 1 - pos))))
      ∧ (r.width ≤ pos → pos < 2 ^ 24 → answered s t (faultWord 1 pos))

/-- R62, SET.X, SET.Y, SET.Z: in range, the bit at the position becomes `value`, every other position is
as before, val(r') = (val(r) AND NOT 2^(N-1-pos)) OR value * 2^(N-1-pos), ACK; at pos >= N_r OutOfRange and
no bit of any register written. pos is the 24-bit field arg: for every pos of it from N_r on the answer is
the FAULT word that 60_exceptions.md section 1 gives OutOfRange, cause 0x1 with pos as info. An operand no
field can hold is spoken of in `WideOperandsAnswerTheirLowBits`. -/
def Obligations.SetWritesOneBitOrFaults : Prop :=
  ∀ (r : Reg),
    (∀ hasShow (a : Arg) (v : Bool),
      decode hasShow (commandWord 0x3 (selNumber r) v a) = some (.setOf r a.toNat v))
    ∧ ∀ (pos : Nat) (value : Bool) (s : State), ∃ t, exec (.setOf r pos value) s = .next t
      ∧ othersKept r s t ∧ restKept s t
      ∧ (pos < r.width →
          (∀ q, q < r.width → t.block.bit r q = if q = pos then value else s.block.bit r q)
          ∧ (t.block.get r).toNat
              = ((s.block.get r).toNat &&& (2 ^ r.width - 1 - 2 ^ (r.width - 1 - pos)))
                ||| value.toNat * 2 ^ (r.width - 1 - pos)
          ∧ answered s t ackWord)
      ∧ (r.width ≤ pos → t.block = s.block ∧ (pos < 2 ^ 24 → answered s t (faultWord 1 pos)))

/-- R63, PEEK.X, PEEK.Y, PEEK.Z: the answer is the bit at the output tap, which is bit 0 of val(r) and
what AT.r N_r-1 answers; total; nothing written. -/
def Obligations.PeekReadsOutputTap : Prop :=
  ∀ (r : Reg),
    (∀ hasShow, decode hasShow (commandWord 0x4 (selNumber r) false 0) = some (.peekOf r))
    ∧ ∀ (s : State), ∃ t, exec (.peekOf r) s = .next t
      ∧ t.block = s.block ∧ restKept s t
      ∧ answered s t (bitWord (s.block.bit r (r.width - 1)))
      ∧ s.block.bit r (r.width - 1) = (s.block.get r).toNat.testBit 0
      ∧ exec (.atOf r (r.width - 1)) s = .next t

/-- R64, SHIFT.X, SHIFT.Y, SHIFT.Z: new.at(i) = old.at(i+1), new.at(N-1) = newBit, in the value view
((val * 2) mod 2^N) + newBit; total; ACK. -/
def Obligations.ShiftMovesEveryBit : Prop :=
  ∀ (r : Reg),
    (∀ hasShow v, decode hasShow (commandWord 0x5 (selNumber r) v 0) = some (.shiftOf r v))
    ∧ ∀ (newBit : Bool) (s : State), ∃ t, exec (.shiftOf r newBit) s = .next t
      ∧ (∀ i, i + 1 < r.width → t.block.bit r i = s.block.bit r (i + 1))
      ∧ t.block.bit r (r.width - 1) = newBit
      ∧ (t.block.get r).toNat = (s.block.get r).toNat * 2 % 2 ^ r.width + newBit.toNat
      ∧ othersKept r s t ∧ restKept s t ∧ answered s t ackWord

/-- R65, SHOW.X, SHOW.Y, SHOW.Z: the answer is REGVAL with val(r) and nothing changes; the command exists
where HAS_SHOW is true and its word is illegal where it is false. -/
def Obligations.ShowReturnsWholeRegister : Prop :=
  ∀ (r : Reg),
    decode true (commandWord 0x7 (selNumber r) false 0) = some (.showOf r)
    ∧ decode false (commandWord 0x7 (selNumber r) false 0) = none
    ∧ ∀ (s : State), ∃ t, exec (.showOf r) s = .next t
      ∧ t.block = s.block ∧ restKept s t
      ∧ answered s t (regValWord r (s.block.get r).toNat)

/-- R66, laws (a) to (f) of the family, in order; (e) in two clauses, the reads and every faulting
command word. -/
def Obligations.BitRegisterLaws : Prop :=
  ∀ (r : Reg) (s t u : State),
    (∀ V p, p < r.width → exec (.loadOf r V) s = .next t → exec (.atOf r p) t = .next u →
      answered t u (bitWord ((V % 2 ^ r.width).testBit (r.width - 1 - p))))
    ∧ (∀ p b q, p < r.width → q < r.width → exec (.setOf r p b) s = .next t →
        exec (.atOf r q) t = .next u →
        answered t u (bitWord (if q = p then b else s.block.bit r q)))
    ∧ (∀ b i, i < r.width → exec (.shiftOf r b) s = .next t → exec (.atOf r i) t = .next u →
        answered t u (bitWord (if i = r.width - 1 then b else s.block.bit r (i + 1))))
    ∧ (exec (.peekOf r) s = .next t ↔ exec (.atOf r (r.width - 1)) s = .next t)
    ∧ (∀ i, exec i s = .next t →
        ((∃ p, i = .atOf r p) ∨ i = .peekOf r ∨ i = .showOf r) →
        t.block = s.block ∧ t.ks = s.ks)
    ∧ (∀ hasShow w rsp, issue hasShow w s = .next t → answered s t rsp → isFault rsp = true →
        t.block = s.block ∧ t.ks = s.ks)
    ∧ (∀ i, exec i s = .next t →
        ((∃ V, i = .loadOf r V) ∨ (∃ p, i = .atOf r p) ∨ (∃ p b, i = .setOf r p b) ∨ i = .peekOf r
          ∨ (∃ b, i = .shiftOf r b) ∨ i = .updateOf r ∨ i = .showOf r) →
        othersKept r s t)

/-- Consequence of R64 (its corner cases): N_r shifts in a row replace the whole contents with the bits
shifted in, the first one ending at position 0. -/
def Obligations.ShiftingNBitsReplacesContents : Prop :=
  ∀ (r : Reg) (bits : List Bool) (s : State), bits.length = r.width →
    ∃ t, execAll (bits.map (.shiftOf r)) s = .next t
      ∧ (∀ p, p < r.width → bits[p]? = some (t.block.bit r p))
      ∧ othersKept r s t ∧ restKept s t

/-- Consequence of R64 (its corner cases): a shift leaves the contents unchanged only for all-zero with a
0 or all-ones with a 1. -/
def Obligations.ShiftFixedContents : Prop :=
  ∀ (r : Reg) (b : Bool) (s t : State), exec (.shiftOf r b) s = .next t →
    (t.block = s.block ↔ (s.block.get r).toNat = if b then 2 ^ r.width - 1 else 0)

/-! The register variants -/

/-- 41_register_variants.md R70: the feedback bit is the XOR of the taps, 1 exactly when an odd number of
them hold 1, and in the value view b_0, b_1, b_2, b_5 for X, b_0, b_1 for Y, b_0, b_1, b_2, b_15 for Z. -/
def Obligations.FeedbackIsXorOfTaps : Prop :=
  ∀ (b : Block),
    (feedback .x b.x = ((b.bit .x 18 ^^ b.bit .x 17) ^^ b.bit .x 16 ^^ b.bit .x 13)
      ∧ feedback .y b.y = (b.bit .y 21 ^^ b.bit .y 20)
      ∧ feedback .z b.z = ((b.bit .z 22 ^^ b.bit .z 21) ^^ b.bit .z 20 ^^ b.bit .z 7))
    ∧ (feedback .x b.x = (((b.x.toNat.testBit 0 ^^ b.x.toNat.testBit 1) ^^ b.x.toNat.testBit 2)
          ^^ b.x.toNat.testBit 5)
      ∧ feedback .y b.y = (b.y.toNat.testBit 0 ^^ b.y.toNat.testBit 1)
      ∧ feedback .z b.z = (((b.z.toNat.testBit 0 ^^ b.z.toNat.testBit 1) ^^ b.z.toNat.testBit 2)
          ^^ b.z.toNat.testBit 15))
    ∧ ∀ (r : Reg), feedback r (b.get r) = decide (((taps r).countP (b.bit r)) % 2 = 1)

/-- R75: the XOR of listed positions is the same in any order of the list, and is the parity of the number
of ones; so no order or grouping of the taps gives another feedback. -/
def Obligations.FeedbackOrderDoesNotMatter : Prop :=
  ∀ (r : Reg) (v : BitVec r.width) (ps qs : List Nat), ps.Perm qs →
    xorOfPositions v ps = xorOfPositions v qs
    ∧ xorOfPositions v ps = decide ((ps.countP (bitAt v)) % 2 = 1)

/-- R71, UPDATE.X: all taps from the pre-shift contents, then the shift. -/
def Obligations.UpdateXClocksX : Prop :=
  (∀ hasShow, decode hasShow 0x60000000 = some .updateX)
  ∧ ∀ (s : State), ∃ t f, exec .updateX s = .next t
    ∧ f = (((s.block.bit .x 18 ^^ s.block.bit .x 17) ^^ s.block.bit .x 16) ^^ s.block.bit .x 13)
    ∧ (∀ i, i ≤ 17 → t.block.bit .x i = s.block.bit .x (i + 1)) ∧ t.block.bit .x 18 = f
    ∧ t.block.x.toNat = s.block.x.toNat * 2 % 2 ^ 19 + f.toNat
    ∧ othersKept .x s t ∧ restKept s t ∧ answered s t ackWord

/-- R72, UPDATE.Y. -/
def Obligations.UpdateYClocksY : Prop :=
  (∀ hasShow, decode hasShow 0x64000000 = some .updateY)
  ∧ ∀ (s : State), ∃ t f, exec .updateY s = .next t
    ∧ f = (s.block.bit .y 21 ^^ s.block.bit .y 20)
    ∧ (∀ i, i ≤ 20 → t.block.bit .y i = s.block.bit .y (i + 1)) ∧ t.block.bit .y 21 = f
    ∧ t.block.y.toNat = s.block.y.toNat * 2 % 2 ^ 22 + f.toNat
    ∧ othersKept .y s t ∧ restKept s t ∧ answered s t ackWord

/-- R73, UPDATE.Z. -/
def Obligations.UpdateZClocksZ : Prop :=
  (∀ hasShow, decode hasShow 0x68000000 = some .updateZ)
  ∧ ∀ (s : State), ∃ t f, exec .updateZ s = .next t
    ∧ f = (((s.block.bit .z 22 ^^ s.block.bit .z 21) ^^ s.block.bit .z 20) ^^ s.block.bit .z 7)
    ∧ (∀ i, i ≤ 21 → t.block.bit .z i = s.block.bit .z (i + 1)) ∧ t.block.bit .z 22 = f
    ∧ t.block.z.toNat = s.block.z.toNat * 2 % 2 ^ 23 + f.toNat
    ∧ othersKept .z s t ∧ restKept s t ∧ answered s t ackWord

/-- R76: UPDATE.r changes r in every state but all-zero, the one fixed point. -/
def Obligations.UpdateFixesOnlyAllZero : Prop :=
  ∀ (r : Reg) (s t : State), exec (.updateOf r) s = .next t →
    (t.block.get r = s.block.get r ↔ s.block.get r = 0)

/-- R77: UPDATE.r depends on nothing but the contents of r. -/
def Obligations.UpdateDependsOnItsRegisterOnly : Prop :=
  ∀ (r : Reg) (s s' t t' : State), s.block.get r = s'.block.get r →
    exec (.updateOf r) s = .next t → exec (.updateOf r) s' = .next t' →
    t.block.get r = t'.block.get r

/-- R78 (a): once the initial bits have left the window, each bit an UPDATE shifts in is the XOR of
earlier ones, 1, 2, 3 and 6 back for X, 1 and 2 back for Y, 1, 2, 3 and 16 back for Z. -/
def Obligations.ShiftedInBitsObeyRecurrence : Prop :=
  (∀ v k, feedbackAfter .x v (k + 6)
    = (((feedbackAfter .x v (k + 5) ^^ feedbackAfter .x v (k + 4)) ^^ feedbackAfter .x v (k + 3))
        ^^ feedbackAfter .x v k))
  ∧ (∀ v k, feedbackAfter .y v (k + 2) = (feedbackAfter .y v (k + 1) ^^ feedbackAfter .y v k))
  ∧ (∀ v k, feedbackAfter .z v (k + 16)
    = (((feedbackAfter .z v (k + 15) ^^ feedbackAfter .z v (k + 14)) ^^ feedbackAfter .z v (k + 13))
        ^^ feedbackAfter .z v k))

/-- R78 (b): only the window from the lowest tap to the output tap feeds back: contents that agree there
shift in the same bits for ever, whatever they hold at lower positions. -/
def Obligations.OnlyTheWindowFeedsBack : Prop :=
  ∀ (r : Reg) (v w : BitVec r.width),
    (∀ p, lowestTap r ≤ p → p < r.width → bitAt v p = bitAt w p) →
    ∀ k, feedbackAfter r v k = feedbackAfter r w k

/-- R78 (c), first part: the map on the window is a bijection (what is left in the window is determined by
what was in it, and determines it), with the all-zero window as a fixed point. -/
def Obligations.WindowMapIsBijective : Prop :=
  ∀ (r : Reg),
    (∀ v w : BitVec r.width, window r (clocked r v) = window r (clocked r w) ↔ window r v = window r w)
    ∧ (∀ v : BitVec r.width, window r v = 0 → window r (clocked r v) = 0)

/-- R78 (c), X and Y: every non-zero window lies on a cycle of one of the lengths the rule lists, first
returning after 15 or 3 UPDATEs of X, after 3 of Y; and each of these lengths occurs. -/
def Obligations.WindowCyclesOfXAndY : Prop :=
  ∀ (r : Reg), r ≠ .z →
    (∀ v : BitVec r.width, window r v ≠ 0 → ∃ n ∈ cycleLengths r,
        window r (clockedTimes r n v) = window r v
        ∧ ∀ m, 0 < m → m < n → window r (clockedTimes r m v) ≠ window r v)
    ∧ (∀ n ∈ cycleLengths r, ∃ v : BitVec r.width, window r v ≠ 0
        ∧ window r (clockedTimes r n v) = window r v
        ∧ ∀ m, 0 < m → m < n → window r (clockedTimes r m v) ≠ window r v)

/-- R78 (c), Z: every non-zero window first returns after 57337, 8191 or 7 UPDATEs. -/
def Obligations.WindowCyclesOfZ : Prop :=
  ∀ (v : BitVec 23), window .z v ≠ 0 → ∃ n ∈ cycleLengths .z,
    window .z (clockedTimes .z n v) = window .z v
    ∧ ∀ m, 0 < m → m < n → window .z (clockedTimes .z m v) ≠ window .z v

/-! The keystream generator -/

/-- 42_keystream_generator.md R80 and R81: the key bit is the XOR of X[18], Y[21], Z[22], 1 exactly when an
odd number of them hold 1; the control bits are X[8], Y[10], Z[10], the bits of weight 2^10, 2^11, 2^12. -/
def Obligations.KeyAndControlPositions : Prop :=
  ∀ (b : Block),
    keyBit b = ((b.bit .x 18 ^^ b.bit .y 21) ^^ b.bit .z 22)
    ∧ keyBit b = decide ((b.x.toNat + b.y.toNat + b.z.toNat) % 2 = 1)
    ∧ controlBit b .x = b.bit .x 8 ∧ controlBit b .x = b.x.toNat.testBit 10
    ∧ controlBit b .y = b.bit .y 10 ∧ controlBit b .y = b.y.toNat.testBit 11
    ∧ controlBit b .z = b.bit .z 10 ∧ controlBit b .z = b.z.toNat.testBit 12

/-- R82, R83 and R85: the majority is true iff at least two control bits are; a register is enabled exactly
when its control bit equals the majority; two or three are enabled, three exactly when the control bits
are equal. -/
def Obligations.MajorityEnablesTwoOrThree : Prop :=
  ∀ (b : Block),
    (vote b = true ↔
      2 ≤ (controlBit b .x).toNat + (controlBit b .y).toNat + (controlBit b .z).toNat)
    ∧ (∀ r, enabled b r = true ↔ controlBit b r = vote b)
    ∧ (let n := (enabled b .x).toNat + (enabled b .y).toNat + (enabled b .z).toNat
       (n = 2 ∨ n = 3)
       ∧ (n = 3 ↔ controlBit b .x = controlBit b .y ∧ controlBit b .y = controlBit b .z))

/-- R84: in a STEP each enabled register is left as its own UPDATE from the pre-clock state leaves it, and
each other register bit for bit as it was. -/
def Obligations.StepClocksExactlyTheEnabled : Prop :=
  ∀ (s t : State) (r : Reg), exec .step s = .next t →
    (enabled s.block r = true →
      ∃ u, exec (.updateOf r) s = .next u ∧ t.block.get r = u.block.get r)
    ∧ (enabled s.block r = false → t.block.get r = s.block.get r)

/-- R86, STEP: the key bit from the pre-clock output taps goes on the channel; the control bits are
X[8], Y[10], Z[10] of the pre-clock state; m is their majority; each register whose control bit equals m is
shifted with the XOR of its taps, the others hold; the answer carries the key and the three enables. -/
def Obligations.StepPerformsOnePass : Prop :=
  (∀ hasShow, decode hasShow 0x80000000 = some .step)
  ∧ ∀ (s : State), ∃ t key m, exec .step s = .next t
    ∧ key = ((s.block.bit .x 18 ^^ s.block.bit .y 21) ^^ s.block.bit .z 22)
    ∧ m = ((s.block.bit .x 8 && s.block.bit .y 10) || (s.block.bit .y 10 && s.block.bit .z 10)
        || (s.block.bit .z 10 && s.block.bit .x 8))
    ∧ t.block.x.toNat
        = (if s.block.bit .x 8 = m then
            s.block.x.toNat * 2 % 2 ^ 19
              + (((s.block.bit .x 18 ^^ s.block.bit .x 17) ^^ s.block.bit .x 16)
                  ^^ s.block.bit .x 13).toNat
          else s.block.x.toNat)
    ∧ t.block.y.toNat
        = (if s.block.bit .y 10 = m then
            s.block.y.toNat * 2 % 2 ^ 22 + (s.block.bit .y 21 ^^ s.block.bit .y 20).toNat
          else s.block.y.toNat)
    ∧ t.block.z.toNat
        = (if s.block.bit .z 10 = m then
            s.block.z.toNat * 2 % 2 ^ 23
              + (((s.block.bit .z 22 ^^ s.block.bit .z 21) ^^ s.block.bit .z 20)
                  ^^ s.block.bit .z 7).toNat
          else s.block.z.toNat)
    ∧ restKeptEmitting [key] s t
    ∧ answered s t
        (stepOutWord key (s.block.bit .x 8 == m) (s.block.bit .y 10 == m) (s.block.bit .z 10 == m))

/-- R87, GEN: `length` steps one after another: the registers and the keystream are as that many STEPs
leave them, bit i is the key of the i-th of those steps, and for every length the 24-bit field arg can hold
the answer is GENDONE with the length. A length no field can hold is spoken of in
`WideOperandsAnswerTheirLowBits`. -/
def Obligations.GenIsLengthSteps : Prop :=
  (∀ hasShow (a : Arg), decode hasShow (commandWord 0x9 0 false a) = some (.gen a.toNat))
  ∧ ∀ (n : Nat) (s : State), ∃ t bits u, exec (.gen n) s = .next t
    ∧ bits.length = n ∧ restKeptEmitting bits s t ∧ (n < 2 ^ 24 → answered s t (genDoneWord n))
    ∧ execAll (List.replicate n .step) s = .next u ∧ t.block = u.block ∧ t.ks = u.ks
    ∧ ∀ i, i < n → ∃ v, execAll (List.replicate i .step) s = .next v
        ∧ bits[i]? = some (keyBit v.block)

/-- R88, continuity: GEN a then GEN b puts out the bits of GEN (a+b) and leaves the same registers; GEN n
does to registers and keystream what n STEPs do. -/
def Obligations.GenContinuesWhereItLeftOff : Prop :=
  ∀ (s : State),
    (∀ (a b : Nat), ∃ t u, execAll [.gen a, .gen b] s = .next t ∧ exec (.gen (a + b)) s = .next u
      ∧ t.block = u.block ∧ t.ks = u.ks)
    ∧ (∀ (n : Nat), ∃ t u, execAll (List.replicate n .step) s = .next t ∧ exec (.gen n) s = .next u
      ∧ t.block = u.block ∧ t.ks = u.ks)

/-- R91 (with R10): nothing outside the three registers influences a command: from states with equal
registers every command leaves equal registers, gives the same response and puts out the same bits. -/
def Obligations.OnlyRegistersInfluenceACommand : Prop :=
  ∀ (i : Instr) (s s' t t' : State), s.block = s'.block →
    exec i s = .next t → exec i s' = .next t' → sameEffect s t s' t'

/-- Vectors KG1 and KG3 of 95_test_vectors.md section 2.3.6 as laws: with X and Y all-zero and Z all-zero,
or Z[10] = 1 and the output tap of Z 0, GEN of any length leaves the registers as they are and puts out
only zeros. -/
def Obligations.GeneratorFixedPoints : Prop :=
  ∀ (s t : State) (n : Nat), s.block.x = 0 → s.block.y = 0 →
    (s.block.z = 0 ∨ (s.block.bit .z 10 = true ∧ s.block.bit .z 22 = false)) →
    exec (.gen n) s = .next t →
    t.block = s.block ∧ t.ks = s.ks ++ List.replicate n false

/-! Whole-machine rules -/

/-- 10_state.md R17: a register changes only by LOAD, SET, SHIFT or UPDATE of that register, by STEP or by
GEN; and by the last two only through clockings, never through a single-bit write. -/
def Obligations.OnlyNamedCommandsChangeARegister : Prop :=
  ∀ (i : Instr) (s t : State) (r : Reg), exec i s = .next t → t.block.get r ≠ s.block.get r →
    (∃ V, i = .loadOf r V) ∨ (∃ p b, i = .setOf r p b) ∨ (∃ b, i = .shiftOf r b) ∨ i = .updateOf r
      ∨ ((i = .step ∨ ∃ n, i = .gen n)
          ∧ ∃ k, k ≤ bitCount (some i) ∧ t.block.get r = clockedTimes r k (s.block.get r))

/-- 30_encoding.md R56: a STEP puts one bit on the channel and a GEN its length; no other command puts
anything on it; bits are only appended, so the i-th bit of a command follows all bits before it. -/
def Obligations.OnlyStepAndGenEmit : Prop :=
  ∀ hasShow (w : Word) (s t : State), issue hasShow w s = .next t →
    ∃ bits, t.ks = s.ks ++ bits ∧ bits.length = bitCount (decode hasShow w)
      ∧ t.ksBefore = s.ksBefore

/-- R55: every command word, legal or not, is answered by exactly one response word, of the layout of the
table and of a kind the table gives for that command. -/
def Obligations.EveryCommandAnswersOnce : Prop :=
  ∀ hasShow (w : Word) (s : State), ∃ t rsp, issue hasShow w s = .next t ∧ answered s t rsp
    ∧ LegalResponse rsp ∧ kindOf rsp ∈ answerKinds (decode hasShow w)

/-- 60_exceptions.md R100: OutOfRange is raised by AT and SET, and by no other command, exactly when
pos >= N_r; so a decoded command answers FAULT in exactly those cases, and for every position the 24-bit
field arg can hold the FAULT records it, in the word of the row OutOfRange of section 1's table: cause 0x1,
info the position. (R101 as a whole is `FaultCarriesCauseAndInfo`; a position no field can hold is spoken of
in `WideOperandsAnswerTheirLowBits`.) -/
def Obligations.OnlyAtAndSetOutOfRangeFault : Prop :=
  ∀ (i : Instr) (s : State), ∃ t w, exec i s = .next t ∧ answered s t w
    ∧ (isFault w = true → ∃ r p, r.width ≤ p ∧ (i = .atOf r p ∨ ∃ b, i = .setOf r p b)
        ∧ (p < 2 ^ 24 → w = faultWord 1 p))
    ∧ ∀ r p, r.width ≤ p → (i = .atOf r p ∨ ∃ b, i = .setOf r p b) →
        isFault w = true ∧ (p < 2 ^ 24 → w = faultWord 1 p)

/-- The model's choice, log entry 9, and no rule of the spec: operands are natural numbers in the syntax, so
AT, SET and GEN have a meaning also at an operand of 2^24 or more, which no command word can carry. There
the FAULT info and the GENDONE length are the low 24 bits of the operand. -/
def Obligations.WideOperandsAnswerTheirLowBits : Prop :=
  (∀ (r : Reg) (pos : Nat) (value : Bool) (s : State), 2 ^ 24 ≤ pos →
    ∃ t, exec (.atOf r pos) s = .next t ∧ exec (.setOf r pos value) s = .next t
      ∧ t.block = s.block ∧ restKept s t ∧ answered s t (faultWord 1 (pos % 2 ^ 24)))
  ∧ (∀ (n : Nat) (s : State), 2 ^ 24 ≤ n →
    ∃ t, exec (.gen n) s = .next t ∧ answered s t (genDoneWord (n % 2 ^ 24)))

/-- R101: a FAULT carries cause 1 and the 24 bits of the arg field of an AT or SET word, or cause 2 and the
low 24 bits of a word that is no command; no other cause occurs. -/
def Obligations.FaultCarriesCauseAndInfo : Prop :=
  ∀ hasShow (w rsp : Word) (s t : State), issue hasShow w s = .next t → answered s t rsp →
    isFault rsp = true →
    (decode hasShow w = none ∧ rsp = faultWord 2 (w.toNat % 2 ^ 24))
    ∨ (∃ r, r.width ≤ w.toNat % 2 ^ 24 ∧ rsp = faultWord 1 (w.toNat % 2 ^ 24)
        ∧ (decode hasShow w = some (.atOf r (w.toNat % 2 ^ 24))
            ∨ ∃ b, decode hasShow w = some (.setOf r (w.toNat % 2 ^ 24) b)))

/-- R54 (and R102, R104): the illegal words are exactly those of the rule's list; each answers
IllegalCommand with its low 24 bits, whatever they would be as a position, and has no other effect; the
all-zero and the all-ones word are illegal. -/
def Obligations.IllegalWordsAreExactlyTheListed : Prop :=
  (∀ hasShow (w : Word), decode hasShow w = none ↔ illegalByR54 hasShow w.toNat)
  ∧ (∀ hasShow (w : Word) (s : State), illegalByR54 hasShow w.toNat →
      issue hasShow w s
        = .next { s with rsps := s.rsps ++ [faultWord 2 (w.toNat % 2 ^ 24)] })
  ∧ (∀ hasShow, decode hasShow 0x00000000 = none ∧ decode hasShow 0xFFFFFFFF = none)

/-- R105: a faulting command has no effect other than its FAULT response. -/
def Obligations.FaultLeavesNoTrace : Prop :=
  ∀ hasShow (w rsp : Word) (s t : State), issue hasShow w s = .next t → answered s t rsp →
    isFault rsp = true → t = { s with rsps := s.rsps ++ [rsp] }

/-- R106: after a FAULT the next command has the effect it would have had without the faulting one. -/
def Obligations.CommandAfterFaultRunsNormally : Prop :=
  ∀ hasShow (bad w rsp : Word) (s t u u' : State),
    issue hasShow bad s = .next t → answered s t rsp → isFault rsp = true →
    issue hasShow w t = .next u → issue hasShow w s = .next u' →
    sameEffect t u s u'

/-- No step of the machine stops, from any state. That a faulting command answers a next state is the
model's choice of log entry 6 (R105 and R106 say the block goes on; the note for the modeller of
60_exceptions.md section 5 suggests the fault outcome), and that the two reset inputs are steps is that of
log entry 7 (R120 gives the reset, not its form); that every other command is total is R108, and that an idle
block changes nothing is section 12. -/
def Obligations.StepAlwaysAnswersNext : Prop :=
  ∀ hasShow (s : State), ∃ t, stepOf hasShow s = .next t

/-- 70_reset_and_hazards.md R120, on the model's two inputs that apply rst (log entry 7): no response is
given, `ks` is empty, the bits already delivered stay delivered (in `ksBefore`, log entry 7), and of an
abandoned command only a first part of its bits; the input has been taken, and the block idles. That the record of earlier
responses is kept over the reset is the model's choice (log entry 5). The register contents are free values
(log entry 1), of which nothing is said. -/
def Obligations.ResetAbandonsWithoutResponse : Prop :=
  ∀ hasShow (s : State) (w : Word),
    (∃ t, stepOf hasShow { s with port := some .rst } = .next t
      ∧ t.ks = [] ∧ t.ksBefore = s.ksBefore ++ s.ks ∧ t.rsps = s.rsps ∧ t.port = none)
    ∧ (∃ t bits, stepOf hasShow { s with port := some (.cmdThenRst w) } = .next t
      ∧ t.ks = [] ∧ t.ksBefore = s.ksBefore ++ s.ks ++ bits ∧ t.rsps = s.rsps ∧ t.port = none
      ∧ ∀ u, issue hasShow w s = .next u → ∃ more, u.ks = s.ks ++ bits ++ more)

/-- 10_state.md R24: after reset the keystream sequence is empty. That nothing has been delivered before it,
answered or issued is the reset value of the model's own fields (its choice: log entries 7, 5 and 3). Nothing
is said of the registers, which are unspecified. -/
def Obligations.ResetKeystreamIsEmpty : Prop :=
  State.reset.ks = [] ∧ State.reset.ksBefore = [] ∧ State.reset.rsps = [] ∧ State.reset.port = none

/-- R121: after the three registers have been loaded, in any order, nothing that any list of command words
answers, emits or leaves in the registers depends on what they held before. -/
def Obligations.LoadedRunsForgetEarlierContents : Prop :=
  ∀ hasShow (vx vy vz : Nat) (loads : List Instr) (ws : List Word) (s s' t t' : State),
    vx < 2 ^ 24 → vy < 2 ^ 24 → vz < 2 ^ 24 → loads.Perm (newgen vx vy vz) →
    issueAll hasShow (loads.map encode ++ ws) s = .next t →
    issueAll hasShow (loads.map encode ++ ws) s' = .next t' →
    sameEffect s t s' t'

/-- A step takes the input at the pins: a word that decodes to a command runs that command, with the input
taken; a word that decodes to none answers IllegalCommand; with nothing at the pins the state stays as it is
(60_exceptions.md section 12). A word placed by `withFetchWord` is the input (log entry 3). -/
def Obligations.StepRunsTheDecodedCommand : Prop :=
  ∀ (s : State) (w : Word) (i : Instr),
    (decode Config.hasShow w = some i →
      step { s with port := some (.cmd w) } = exec i { s with port := none })
    ∧ (decode Config.hasShow w = none →
      step { s with port := some (.cmd w) }
        = .next { s with port := none, rsps := s.rsps ++ [faultWord 2 w.toNat] })
    ∧ step { s with port := none } = .next { s with port := none }
    ∧ (decodeTableWord 32 w.toNat = some i →
      step (s.withFetchWord 32 w.toNat) = exec i { s with port := none })

/-- R19 and R20: the command stream is a parameter, no field. After any step nothing stands at the pins,
so no command or operand outlives its own step; a command has the same effect whatever stands there and
leaves it alone; and driving the block with a stream of command words, on a block whose pins are idle, is
running those words one after another in list order (20_memory.md R39), a longer stream going on from where
the shorter one ended. That the one input of a step is the field `port` beside the machine state is the
model's choice (log entry 3). -/
def Obligations.CommandStreamIsAParameter : Prop :=
  ∀ hasShow (s t : State),
    (stepOf hasShow s = .next t → t.port = none)
    ∧ (∀ i p, exec i s = .next t → exec i { s with port := p } = .next { t with port := p })
    ∧ (∀ ws : List Word, s.port = none → drive hasShow (ws.map .cmd) s = issueAll hasShow ws s)
    ∧ (∀ a b, drive hasShow a s = .next t → drive hasShow (a ++ b) s = drive hasShow b t)

/-- The invariant of the response port (R55 "Kinds 0x5 to 0xE are never produced", R101 "Codes 0x0 and
0x3 to 0xF are not used", R85): every step keeps it, whatever input it takes. -/
def Obligations.StepKeepsResponsesLegal : Prop :=
  ∀ (s t : State), ResponsesLegal s → step s = .next t → ResponsesLegal t

/-- The invariant holds at reset, where the model's own record of responses is empty (its choice, log
entry 5). -/
def Obligations.ResetResponsesLegal : Prop := ResponsesLegal State.reset

/-- What has been put out is never taken back: over any step the bits delivered and the responses given are
extended at the end. Between resets R18 says so of `ks` ("append-only") and R55 gives each command one
response. Over the two reset inputs it rests on the model's choices: R120 says that the bits delivered stay
delivered, and that they are kept in `ksBefore` is log entry 7; that the response record exists and that
reset does not clear it is log entry 5. -/
def Obligations.StepOnlyExtendsOutput : Prop :=
  ∀ (s t : State), step s = .next t →
    (∃ bits, t.ksBefore ++ t.ks = s.ksBefore ++ s.ks ++ bits) ∧ (∃ ws, t.rsps = s.rsps ++ ws)

/-! Encoding -/

/-- Words of R59 and of 95_test_vectors.md decode to the commands they stand for, or to none. -/
def Obligations.SampleWordsDecode : Prop :=
  decode true 0x1007D555 = some (.loadX 0x7D555)
    ∧ decode true 0x24000016 = some (.atY 22)
    ∧ decode true 0x39000016 = some (.setZ 22 true)
    ∧ decode true 0x40000000 = some .peekX
    ∧ decode true 0x55000000 = some (.shiftY true)
    ∧ decode true 0x68000000 = some .updateZ
    ∧ decode true 0x70000000 = some .showX
    ∧ decode true 0x80000000 = some .step
    ∧ decode true 0x9000000A = some (.gen 10)
    ∧ decode true 0x41000000 = none
    ∧ decode true 0x2C000063 = none

/-- For every well-formed command, with every operand its word admits, decoding its word gives it back. -/
def Obligations.DecodeOfEncode : Prop :=
  ∀ hasShow (i : Instr), i.wellFormed hasShow = true → decode hasShow (encode i) = some i

/-- Every word has one meaning and every command one word: a word that decodes is the word of the
well-formed command it decodes to. -/
def Obligations.EncodeOfDecode : Prop :=
  ∀ hasShow (w : Word) (i : Instr), decode hasShow w = some i →
    i.wellFormed hasShow = true ∧ encode i = w

/-- R59: the word of a command is (op << 28) OR (sel << 26) OR (v << 24) OR arg, and the assembler refuses
an operand that does not fit. -/
def Obligations.EncodeFollowsTheFormula : Prop :=
  (∀ (i : Instr), i.wellFormed true = true →
    encode i
      = commandWord (commandFields i).1 (commandFields i).2.1 (commandFields i).2.2.1
          (BitVec.ofNat 24 (commandFields i).2.2.2))
  ∧ (∀ hasShow (is : List Instr), (∃ i ∈ is, 2 ^ 24 ≤ (commandFields i).2.2.2) →
      wordsOf hasShow is = none)
  ∧ (∀ n, bitOperand n = none ↔ n ≠ 0 ∧ n ≠ 1)

/-- R52: a word encodes the command of a row exactly when (w AND mask) = match; the rows are pairwise
disjoint; where HAS_SHOW is true the decoder and the table agree on every word. -/
def Obligations.OpcodeTableDecides : Prop :=
  (∀ (w : Word) (row : Row), row ∈ opcodeTable →
    (w &&& row.mask = row.code ↔ ∃ i, decode true w = some i ∧ i.mnemonic = row.mnemonic))
  ∧ (∀ (w : Word) (row row' : Row), row ∈ opcodeTable → row' ∈ opcodeTable →
      w &&& row.mask = row.code → w &&& row'.mask = row'.code → row = row')
  ∧ (∀ (w : Word), (∃ i, decode true w = some i) ↔
      ∃ row ∈ opcodeTable, w &&& row.mask = row.code)

/-- R53: the numeric operand of a decoded command is cmd[23:0] as an unsigned integer, the bit operand is
cmd[24], the register is named by cmd[27:26]. -/
def Obligations.OperandsAreTheFields : Prop :=
  ∀ hasShow (w : Word) (r : Reg) (n : Nat) (b : Bool),
    ((decode hasShow w = some (.loadOf r n) ∨ decode hasShow w = some (.atOf r n)
        ∨ decode hasShow w = some (.setOf r n b) ∨ decode hasShow w = some (.gen n)) →
      n = w.toNat % 2 ^ 24 ∧ n ≤ 16777215)
    ∧ ((decode hasShow w = some (.setOf r n b) ∨ decode hasShow w = some (.shiftOf r b)) →
      b = w.toNat.testBit 24)
    ∧ ((decode hasShow w = some (.loadOf r n) ∨ decode hasShow w = some (.atOf r n)
        ∨ decode hasShow w = some (.setOf r n b) ∨ decode hasShow w = some (.peekOf r)
        ∨ decode hasShow w = some (.shiftOf r b) ∨ decode hasShow w = some (.updateOf r)
        ∨ decode hasShow w = some (.showOf r)) →
      selNumber r = w.toNat / 2 ^ 26 % 4)

/-- R58, the pseudo-commands: NEWGEN's three LOADs in any order leave the three values and touch nothing
else; PEEK.r is AT.r N_r-1; GEN n is n STEPs on registers and keystream, and GEN 0 changes neither; UPDATE.r
is SHIFT.r of the feedback bit of the pre-state. -/
def Obligations.PseudoCommandsAreIdentities : Prop :=
  ∀ (s : State),
    (∀ vx vy vz (loads : List Instr), loads.Perm (newgen vx vy vz) →
      ∃ t, execAll loads s = .next t ∧ t.block.x.toNat = vx % 2 ^ 19
        ∧ t.block.y.toNat = vy % 2 ^ 22 ∧ t.block.z.toNat = vz % 2 ^ 23 ∧ restKept s t)
    ∧ (∀ r, exec (.peekOf r) s = exec (.atOf r (r.width - 1)) s)
    ∧ (∀ n, ∃ t u, execAll (List.replicate n .step) s = .next t ∧ exec (.gen n) s = .next u
        ∧ t.block = u.block ∧ t.ks = u.ks ∧ (n = 0 → u.block = s.block ∧ u.ks = s.ks))
    ∧ (∀ r, exec (.updateOf r) s = exec (.shiftOf r (feedback r (s.block.get r))) s)

/-- The example lines of R59, in the spelling of R57, assemble to the words the rule gives. -/
def Obligations.AssemblerReadsTheExamples : Prop :=
  assemble true "LOAD.X 0x7D555\nLOAD.Y 0x333333 # comment\nLOAD.Z 0x70F0F0"
      = some [0x1007D555, 0x14333333, 0x1870F0F0]
    ∧ assemble true "AT.X 8\nAT.Y 22\nSET.Z 22, 1" = some [0x20000008, 0x24000016, 0x39000016]
    ∧ assemble true "PEEK.X\nSHIFT.Y 1\nUPDATE.Z\nSHOW.X"
      = some [0x40000000, 0x55000000, 0x68000000, 0x70000000]
    ∧ assemble true "STEP\nGEN 10" = some [0x80000000, 0x9000000A]
    ∧ assemble true "AT.X 16777216" = none ∧ assemble true "SHIFT.Y 2" = none
end

