-- ==== Sys2Proof/Laws/Bits.lean ====
section
/-! SUPPORT. The bits of a register by logical position: what reading, writing and shifting do, in the
position view and in the value view. -/

namespace Sys2Proof.Machine

/-- Inside the register, R[p] is the bit of weight 2^(N-1-p). -/
theorem bitAt_eq_getLsbD {n : Nat} (v : BitVec n) {p : Nat} (h : p < n) :
    bitAt v p = v.getLsbD (n - 1 - p) := by simp [bitAt, h]

theorem bitAt_eq_testBit {n : Nat} (v : BitVec n) {p : Nat} (h : p < n) :
    bitAt v p = v.toNat.testBit (n - 1 - p) := by
  rw [bitAt_eq_getLsbD v h, BitVec.getLsbD]

/-- The bit of weight 2^i is at logical position N-1-i. -/
theorem getLsbD_eq_bitAt {n : Nat} (v : BitVec n) {i : Nat} (h : i < n) :
    v.getLsbD i = bitAt v (n - 1 - i) := by
  rw [bitAt_eq_getLsbD v (by omega)]
  congr 1
  omega

/-- Contents are equal when they agree at every position. -/
theorem eq_of_bitAt_eq {n : Nat} (v w : BitVec n) (h : ∀ p, p < n → bitAt v p = bitAt w p) :
    v = w := by
  apply BitVec.eq_of_getLsbD_eq
  intro i hi
  rw [getLsbD_eq_bitAt v hi, getLsbD_eq_bitAt w hi]
  exact h _ (by omega)

/-- Truncation on construction, in the position view (20_memory.md R32). -/
theorem bitAt_ofNat {n : Nat} (V : Nat) {p : Nat} (h : p < n) :
    bitAt (BitVec.ofNat n V) p = V.testBit (n - 1 - p) := by
  rw [bitAt_eq_testBit _ h, BitVec.toNat_ofNat, Nat.testBit_mod_two_pow]
  simp [show n - 1 - p < n by omega]

/-- Reading back after a single-bit write. -/
theorem bitAt_setBitAt {n : Nat} (v : BitVec n) {p q : Nat} (b : Bool) (hp : p < n) (hq : q < n) :
    bitAt (setBitAt v p b) q = if q = p then b else bitAt v q := by
  rw [bitAt_eq_getLsbD _ hq, bitAt_eq_getLsbD _ hq]
  have key : (n - 1 - p = n - 1 - q) ↔ q = p := by omega
  have hlt : n - 1 - q < n := by omega
  by_cases h : q = p
  · subst h
    cases b <;> simp [setBitAt, hp, hlt]
  · have hne : ¬ (n - 1 - q = n - 1 - p) := fun e => h (key.mp e.symm)
    cases b <;> simp [setBitAt, hp, hlt, h, hne]

/-- The shift moves every bit one place toward position 0. -/
theorem bitAt_shiftIn {n : Nat} (v : BitVec n) (b : Bool) {i : Nat} (h : i + 1 < n) :
    bitAt (shiftIn v b) i = bitAt v (i + 1) := by
  rw [bitAt_eq_getLsbD _ (by omega : i < n), bitAt_eq_getLsbD _ h]
  have h1 : ¬ (n - 1 - i < 1) := by omega
  have h2 : n - 1 - i < n := by omega
  have h3 : n - 1 - i - 1 = n - 1 - (i + 1) := by omega
  have h0 : n - 1 - i ≠ 0 := by omega
  simp [shiftIn, h2, h3, h0, BitVec.getLsbD_eq_getElem (show n - 1 - (i + 1) < n by omega)]

/-- The shift writes the new bit at the output tap. -/
theorem bitAt_shiftIn_last {n : Nat} (v : BitVec n) (b : Bool) (h : 0 < n) :
    bitAt (shiftIn v b) (n - 1) = b := by
  rw [bitAt_eq_getLsbD _ (by omega : n - 1 < n)]
  simp [shiftIn, h]

/-- The shift in the value view (40_bitregister.md R64). -/
theorem toNat_shiftIn {n : Nat} (v : BitVec n) (b : Bool) (h : 0 < n) :
    (shiftIn v b).toNat = v.toNat * 2 % 2 ^ n + b.toNat := by
  have hbits : shiftIn v b = BitVec.ofNat n (v.toNat * 2 + b.toNat) := by
    apply BitVec.eq_of_getLsbD_eq
    intro i hi
    simp only [shiftIn, BitVec.getLsbD_or, BitVec.getLsbD_shiftLeft, BitVec.getLsbD_setWidth,
      BitVec.getLsbD_ofNat, hi]
    rcases i with _ | i
    · cases b <;> simp [Nat.testBit_zero]
    · have half : (v.toNat * 2 + b.toNat) / 2 = v.toNat := by
        have := Bool.toNat_lt b
        omega
      simp only [Nat.testBit_succ, half]
      cases b <;> simp [BitVec.getLsbD, Nat.testBit_succ]
  obtain ⟨m, rfl⟩ : ∃ m, n = m + 1 := ⟨n - 1, by omega⟩
  have hb := Bool.toNat_lt b
  have hm : v.toNat % 2 ^ m < 2 ^ m := Nat.mod_lt _ (by positivity)
  have hdiv := Nat.div_add_mod v.toNat (2 ^ m)
  have hdouble : v.toNat * 2 % (2 ^ m * 2) = v.toNat % 2 ^ m * 2 := Nat.mul_mod_mul_right ..
  have hsum : v.toNat * 2 + b.toNat
      = (v.toNat % 2 ^ m * 2 + b.toNat) + 2 ^ m * 2 * (v.toNat / 2 ^ m) := by nlinarith
  rw [hbits, BitVec.toNat_ofNat, pow_succ, hdouble, hsum, Nat.add_mul_mod_self_left,
    Nat.mod_eq_of_lt (by omega)]

theorem reg_width_pos (r : Reg) : 0 < r.width := by cases r <;> decide

theorem outTap_lt (r : Reg) : outTap r < r.width := by cases r <;> decide

theorem ctrl_lt (r : Reg) : ctrl r < r.width := by cases r <;> decide

theorem taps_lt (r : Reg) : ∀ p ∈ taps r, p < r.width := by cases r <;> decide

theorem feedback_x (v : BitVec 19) :
    feedback .x v = (((bitAt v 18 ^^ bitAt v 17) ^^ bitAt v 16) ^^ bitAt v 13) := by
  simp [feedback, xorOfPositions, taps, Reg.width]

theorem feedback_y (v : BitVec 22) : feedback .y v = (bitAt v 21 ^^ bitAt v 20) := by
  simp [feedback, xorOfPositions, taps, Reg.width]

theorem feedback_z (v : BitVec 23) :
    feedback .z v = (((bitAt v 22 ^^ bitAt v 21) ^^ bitAt v 20) ^^ bitAt v 7) := by
  simp [feedback, xorOfPositions, taps, Reg.width]

end Sys2Proof.Machine
end

