-- ==== Sys2Proof/Laws/Encoding.lean ====
section
/-! SUPPORT. The fields of a command word and their codes as numbers: splitting and joining are
inverse. -/

namespace Sys2Proof

@[simp] theorem Op.ofCode_code (op : Op) : Op.ofCode op.code = some op := by cases op <;> decide

@[simp] theorem Reg.ofSel_sel (r : Reg) : Reg.ofSel r.sel = some r := by cases r <;> decide

theorem Op.code_of_ofCode {c : BitVec 4} {op : Op} (h : Op.ofCode c = some op) : op.code = c := by
  revert c op; decide

theorem Reg.sel_of_ofSel {c : BitVec 2} {r : Reg} (h : Reg.ofSel c = some r) : r.sel = c := by
  revert c r; decide

/-- Joining two bit vectors, as numbers. -/
theorem toNat_append_eq_add {m n : Nat} (a : BitVec m) (b : BitVec n) :
    (a ++ b).toNat = a.toNat * 2 ^ n + b.toNat := by
  rw [BitVec.toNat_append, ← Nat.shiftLeft_add_eq_or_of_lt b.isLt, Nat.shiftLeft_eq]

/-- The word of the fields as a number: each field at its weight (R51). -/
theorem Fields.toNat_toWord (f : Fields) :
    f.toWord.toNat
      = f.op.toNat * 2 ^ 28 + f.sel.toNat * 2 ^ 26 + f.rsv.toNat * 2 ^ 25 + f.v.toNat * 2 ^ 24
        + f.arg.toNat := by
  have h : f.toWord.toNat
      = f.op.toNat * 2 ^ (2 + (1 + (1 + 24))) + (f.sel.toNat * 2 ^ (1 + (1 + 24))
        + ((BitVec.ofBool f.rsv).toNat * 2 ^ (1 + 24)
          + ((BitVec.ofBool f.v).toNat * 2 ^ 24 + f.arg.toNat))) := by
    rw [← toNat_append_eq_add, ← toNat_append_eq_add, ← toNat_append_eq_add, ← toNat_append_eq_add]
    rfl
  rw [h, BitVec.toNat_ofBool, BitVec.toNat_ofBool]
  omega

@[simp] theorem Fields.toNat_op (w : Word) : (Fields.ofWord w).op.toNat = w.toNat / 2 ^ 28 := by
  have := w.isLt
  simp [Fields.ofWord, BitVec.extractLsb'_toNat, Nat.shiftRight_eq_div_pow]
  omega

@[simp] theorem Fields.toNat_sel (w : Word) : (Fields.ofWord w).sel.toNat = w.toNat / 2 ^ 26 % 4 := by
  simp [Fields.ofWord, BitVec.extractLsb'_toNat, Nat.shiftRight_eq_div_pow]

theorem Fields.toNat_rsv (w : Word) : (Fields.ofWord w).rsv.toNat = w.toNat / 2 ^ 25 % 2 := by
  show (w.toNat.testBit 25).toNat = _
  rw [Nat.toNat_testBit]

theorem Fields.toNat_v (w : Word) : (Fields.ofWord w).v.toNat = w.toNat / 2 ^ 24 % 2 := by
  show (w.toNat.testBit 24).toNat = _
  rw [Nat.toNat_testBit]

@[simp] theorem Fields.toNat_arg (w : Word) : (Fields.ofWord w).arg.toNat = w.toNat % 2 ^ 24 := by
  simp [Fields.ofWord, BitVec.extractLsb'_toNat]

/-- Fields are equal when their numbers are. -/
theorem Fields.ext_toNat (f g : Fields) (h1 : f.op.toNat = g.op.toNat)
    (h2 : f.sel.toNat = g.sel.toNat) (h3 : f.rsv.toNat = g.rsv.toNat) (h4 : f.v.toNat = g.v.toNat)
    (h5 : f.arg.toNat = g.arg.toNat) : f = g := by
  obtain ⟨op, sel, rsv, v, arg⟩ := f
  obtain ⟨op', sel', rsv', v', arg'⟩ := g
  simp only [Fields.mk.injEq]
  refine ⟨BitVec.eq_of_toNat_eq h1, BitVec.eq_of_toNat_eq h2, ?_, ?_, BitVec.eq_of_toNat_eq h5⟩
  · cases rsv <;> cases rsv' <;> simp_all
  · cases v <;> cases v' <;> simp_all

/-- Splitting a joined word gives the fields back: no bit of a field is dropped or moved. -/
@[simp] theorem Fields.ofWord_toWord (f : Fields) : Fields.ofWord f.toWord = f := by
  have hn := f.toNat_toWord
  have h1 := f.op.isLt
  have h2 := f.sel.isLt
  have h3 := Bool.toNat_lt f.rsv
  have h4 := Bool.toNat_lt f.v
  have h5 := f.arg.isLt
  apply Fields.ext_toNat
  · rw [Fields.toNat_op]; omega
  · rw [Fields.toNat_sel]; omega
  · rw [Fields.toNat_rsv]; omega
  · rw [Fields.toNat_v]; omega
  · rw [Fields.toNat_arg]; omega

/-- Joining the fields of a word gives the word back. -/
@[simp] theorem Fields.toWord_ofWord (w : Word) : (Fields.ofWord w).toWord = w := by
  apply BitVec.eq_of_toNat_eq
  rw [Fields.toNat_toWord, Fields.toNat_op, Fields.toNat_sel, Fields.toNat_rsv, Fields.toNat_v,
    Fields.toNat_arg]
  have := w.isLt
  omega

end Sys2Proof
end

