-- ==== Sys2Proof/Laws/Response.lean ====
section
/-! SUPPORT. Every response word as a number: the model's layout agrees with the weights of
30_encoding.md R55. -/

namespace Sys2Proof.Machine

open Sys2Proof.Safety

theorem responseWord_ack : responseWord .ack = ackWord := rfl

theorem responseWord_bit (b : Bool) : responseWord (.bit b) = bitWord b := by cases b <;> rfl

theorem responseWord_stepOut (key enX enY enZ : Bool) :
    responseWord (.stepOut key enX enY enZ) = stepOutWord key enX enY enZ := by
  revert key enX enY enZ; decide

theorem responseWord_regVal (r : Reg) (v : BitVec 23) :
    responseWord (.regVal r v) = regValWord r v.toNat := by
  apply BitVec.eq_of_toNat_eq
  have h : (responseWord (.regVal r v)).toNat
      = (0x3#4).toNat * 2 ^ (2 + (3 + 23)) + (r.sel.toNat * 2 ^ (3 + 23)
        + ((0#3).toNat * 2 ^ 23 + v.toNat)) := by
    rw [← toNat_append_eq_add, ← toNat_append_eq_add, ← toNat_append_eq_add]
    rfl
  have hv := v.isLt
  cases r <;> simp [h, regValWord, selNumber, Reg.sel] <;> omega

theorem responseWord_genDone (n : Arg) : responseWord (.genDone n) = genDoneWord n.toNat := by
  apply BitVec.eq_of_toNat_eq
  have h : (responseWord (.genDone n)).toNat
      = (0x4#4).toNat * 2 ^ (4 + 24) + ((0#4).toNat * 2 ^ 24 + n.toNat) := by
    rw [← toNat_append_eq_add, ← toNat_append_eq_add]
    rfl
  have hn := n.isLt
  simp [h, genDoneWord]
  omega

theorem responseWord_faulted (c : Cause) (info : Arg) :
    responseWord (.faulted c info) = faultWord (causeCode c).toNat info.toNat := by
  apply BitVec.eq_of_toNat_eq
  have h : (responseWord (.faulted c info)).toNat
      = (0xF#4).toNat * 2 ^ (4 + 24) + ((causeCode c).toNat * 2 ^ 24 + info.toNat) := by
    rw [← toNat_append_eq_add, ← toNat_append_eq_add]
    rfl
  have hi := info.isLt
  cases c <;> simp [h, faultWord, causeCode] <;> omega

/-- A word that is a FAULT is not any other answer: the kind of each response. -/
theorem kindOf_responseWord (r : Response) :
    kindOf (responseWord r) = match r with
      | .ack => 0x0
      | .bit _ => 0x1
      | .stepOut .. => 0x2
      | .regVal .. => 0x3
      | .genDone _ => 0x4
      | .faulted .. => 0xF := by
  cases r with
  | ack => rfl
  | bit b => cases b <;> rfl
  | stepOut k x y z => revert k x y z; decide
  | regVal r v =>
    rw [responseWord_regVal]
    have := v.isLt
    cases r <;> simp [kindOf, regValWord, selNumber] <;> omega
  | genDone n =>
    rw [responseWord_genDone]
    have := n.isLt
    simp [kindOf, genDoneWord]
    omega
  | faulted c info =>
    rw [responseWord_faulted]
    have := info.isLt
    cases c <;> simp [kindOf, faultWord, causeCode] <;> omega

end Sys2Proof.Machine
end

