-- ==== Sys2Proof/Laws/CommandWord.lean ====
section
/-! SUPPORT. The command word of the formula of 30_encoding.md R59, read by its fields; which responses
are a FAULT. -/

namespace Sys2Proof.Machine

open Sys2Proof.Safety

theorem selNumber_lt (r : Reg) : selNumber r < 4 := by cases r <;> decide

theorem ofNat_selNumber (r : Reg) : BitVec.ofNat 2 (selNumber r) = r.sel := by cases r <;> rfl

theorem testBit_of_lt {a n k : Nat} (h : a < 2 ^ n) (hk : n ≤ k) : a.testBit k = false :=
  Nat.testBit_lt_two_pow (lt_of_lt_of_le h (Nat.pow_le_pow_right (by decide) hk))

/-- The formula's word is the word of the fields it is made of. -/
theorem commandWord_eq_toWord {op sel : Nat} (v : Bool) (arg : Arg) (hsel : sel < 4) :
    commandWord op sel v arg
      = Fields.toWord ⟨BitVec.ofNat 4 op, BitVec.ofNat 2 sel, false, v, arg⟩ := by
  have hsel' : ∀ k, 2 ≤ k → sel.testBit k = false := fun k hk =>
    testBit_of_lt (n := 2) (by omega) hk
  have h1 : ∀ k, 1 ≤ k → (1 : Nat).testBit k = false := fun k hk =>
    testBit_of_lt (n := 1) (by decide) hk
  apply BitVec.eq_of_getLsbD_eq
  intro i hi
  simp only [commandWord, Fields.toWord, BitVec.getLsbD_append, BitVec.getLsbD_or,
    BitVec.getLsbD_shiftLeft, BitVec.getLsbD_ofNat, BitVec.getLsbD_setWidth]
  interval_cases i <;> cases v <;> simp [hsel', h1]

/-- Decoding the formula's word. -/
theorem decode_commandWord (hasShow : Bool) {op sel : Nat} (v : Bool) (arg : Arg) (hsel : sel < 4) :
    decode hasShow (commandWord op sel v arg)
      = decodeFields hasShow ⟨BitVec.ofNat 4 op, BitVec.ofNat 2 sel, false, v, arg⟩ := by
  rw [commandWord_eq_toWord v arg hsel, decode, Fields.ofWord_toWord]

/-- The responses that are a FAULT. -/
theorem isFault_responseWord (r : Response) :
    isFault (responseWord r) = true ↔ ∃ c info, r = .faulted c info := by
  simp only [isFault, kindOf_responseWord]
  cases r <;> simp

end Sys2Proof.Machine
end

