-- ==== Sys2Proof/Laws/State.lean ====
section
/-! SUPPORT. One lemma per field per update of the state and of the block. -/

namespace Sys2Proof.Machine

@[simp] theorem Block.get_x (b : Block) : b.get .x = b.x := rfl
@[simp] theorem Block.get_y (b : Block) : b.get .y = b.y := rfl
@[simp] theorem Block.get_z (b : Block) : b.get .z = b.z := rfl

@[simp] theorem Block.get_put_same (b : Block) (r : Reg) (v : BitVec r.width) :
    (b.put r v).get r = v := by cases r <;> rfl

theorem Block.get_put_other (b : Block) (r q : Reg) (v : BitVec r.width) (h : q ≠ r) :
    (b.put r v).get q = b.get q := by cases r <;> cases q <;> first | rfl | exact absurd rfl h

/-- Two blocks are equal exactly when their three registers are (10_state.md R10). -/
theorem Block.ext_get (a b : Block) (h : ∀ r, a.get r = b.get r) : a = b := by
  obtain ⟨ax, ay, az⟩ := a
  obtain ⟨bx, hby, bz⟩ := b
  have hx := h .x
  have hy := h .y
  have hz := h .z
  simp only [Block.get_x, Block.get_y, Block.get_z] at hx hy hz
  simp only [hx, hy, hz]

@[simp] theorem State.putReg_block (s : State) (r : Reg) (v : BitVec r.width) :
    (s.putReg r v).block = s.block.put r v := rfl
@[simp] theorem State.putReg_ks (s : State) (r : Reg) (v : BitVec r.width) :
    (s.putReg r v).ks = s.ks := rfl
@[simp] theorem State.putReg_ksBefore (s : State) (r : Reg) (v : BitVec r.width) :
    (s.putReg r v).ksBefore = s.ksBefore := rfl
@[simp] theorem State.putReg_rsps (s : State) (r : Reg) (v : BitVec r.width) :
    (s.putReg r v).rsps = s.rsps := rfl
@[simp] theorem State.putReg_port (s : State) (r : Reg) (v : BitVec r.width) :
    (s.putReg r v).port = s.port := rfl
@[simp] theorem State.putReg_resets (s : State) (r : Reg) (v : BitVec r.width) :
    (s.putReg r v).resets = s.resets := rfl

@[simp] theorem State.emit_block (s : State) (bits : List Bool) :
    (s.emit bits).block = s.block := rfl
@[simp] theorem State.emit_ks (s : State) (bits : List Bool) :
    (s.emit bits).ks = s.ks ++ bits := rfl
@[simp] theorem State.emit_ksBefore (s : State) (bits : List Bool) :
    (s.emit bits).ksBefore = s.ksBefore := rfl
@[simp] theorem State.emit_rsps (s : State) (bits : List Bool) :
    (s.emit bits).rsps = s.rsps := rfl
@[simp] theorem State.emit_port (s : State) (bits : List Bool) :
    (s.emit bits).port = s.port := rfl
@[simp] theorem State.emit_resets (s : State) (bits : List Bool) :
    (s.emit bits).resets = s.resets := rfl

@[simp] theorem State.respond_block (s : State) (r : Response) :
    (s.respond r).block = s.block := rfl
@[simp] theorem State.respond_ks (s : State) (r : Response) : (s.respond r).ks = s.ks := rfl
@[simp] theorem State.respond_ksBefore (s : State) (r : Response) :
    (s.respond r).ksBefore = s.ksBefore := rfl
@[simp] theorem State.respond_rsps (s : State) (r : Response) :
    (s.respond r).rsps = s.rsps ++ [responseWord r] := rfl
@[simp] theorem State.respond_port (s : State) (r : Response) :
    (s.respond r).port = s.port := rfl
@[simp] theorem State.respond_resets (s : State) (r : Response) :
    (s.respond r).resets = s.resets := rfl

@[simp] theorem takeFault_block (c : Cause) (info : Arg) (s : State) :
    (takeFault c info s).block = s.block := rfl
@[simp] theorem takeFault_ks (c : Cause) (info : Arg) (s : State) :
    (takeFault c info s).ks = s.ks := rfl
@[simp] theorem takeFault_ksBefore (c : Cause) (info : Arg) (s : State) :
    (takeFault c info s).ksBefore = s.ksBefore := rfl
@[simp] theorem takeFault_rsps (c : Cause) (info : Arg) (s : State) :
    (takeFault c info s).rsps = s.rsps ++ [responseWord (.faulted c info)] := rfl
@[simp] theorem takeFault_port (c : Cause) (info : Arg) (s : State) :
    (takeFault c info s).port = s.port := rfl
@[simp] theorem takeFault_resets (c : Cause) (info : Arg) (s : State) :
    (takeFault c info s).resets = s.resets := rfl

@[simp] theorem takeReset_ks (s : State) : (takeReset s).ks = [] := rfl
@[simp] theorem takeReset_ksBefore (s : State) :
    (takeReset s).ksBefore = s.ksBefore ++ s.ks := rfl
@[simp] theorem takeReset_rsps (s : State) : (takeReset s).rsps = s.rsps := rfl
@[simp] theorem takeReset_port (s : State) : (takeReset s).port = s.port := rfl
@[simp] theorem takeReset_resets (s : State) : (takeReset s).resets = s.resets + 1 := rfl
@[simp] theorem takeReset_block (s : State) :
    (takeReset s).block = Block.atReset (s.resets + 1) := rfl

end Sys2Proof.Machine
end

