-- ==== Sys2Proof/Laws/Exec.lean ====
section
/-! SUPPORT. What each family answers, the families a command can belong to, and what every command
does outside the three registers. -/

namespace Sys2Proof.Machine

theorem exec_loadOf (r : Reg) (v : Nat) (s : State) :
    exec (.loadOf r v) s = .next ((s.putReg r (truncTo r v)).respond .ack) := by cases r <;> rfl

theorem exec_atOf_of_lt (r : Reg) {p : Nat} (s : State) (h : p < r.width) :
    exec (.atOf r p) s = .next (s.respond (.bit (s.block.bit r p))) := by
  cases r <;> exact if_pos (decide_eq_true h)

theorem exec_atOf_of_le (r : Reg) {p : Nat} (s : State) (h : r.width ≤ p) :
    exec (.atOf r p) s = .next (takeFault .outOfRange (argField p) s) := by
  cases r <;> exact if_neg (by simpa [inRange] using h)

theorem exec_setOf_of_lt (r : Reg) {p : Nat} (b : Bool) (s : State) (h : p < r.width) :
    exec (.setOf r p b) s
      = .next ((s.putReg r (setBitAt (s.block.get r) p b)).respond .ack) := by
  cases r <;> exact if_pos (decide_eq_true h)

theorem exec_setOf_of_le (r : Reg) {p : Nat} (b : Bool) (s : State) (h : r.width ≤ p) :
    exec (.setOf r p b) s = .next (takeFault .outOfRange (argField p) s) := by
  cases r <;> exact if_neg (by simpa [inRange] using h)

theorem exec_peekOf (r : Reg) (s : State) :
    exec (.peekOf r) s = .next (s.respond (.bit (s.block.bit r (outTap r)))) := by
  cases r <;> rfl

theorem exec_shiftOf (r : Reg) (b : Bool) (s : State) :
    exec (.shiftOf r b) s = .next ((s.putReg r (shiftIn (s.block.get r) b)).respond .ack) := by
  cases r <;> rfl

theorem exec_updateOf (r : Reg) (s : State) :
    exec (.updateOf r) s
      = .next ((s.putReg r (clocked r (s.block.get r))).respond .ack) := by cases r <;> rfl

theorem exec_showOf (r : Reg) (s : State) :
    exec (.showOf r) s = .next (s.respond (.regVal r ((s.block.get r).setWidth 23))) := by
  cases r <;> rfl

theorem exec_step (s : State) :
    exec .step s
      = .next (({ s.emit [keyBit s.block] with block := stepBlock s.block }).respond
          (.stepOut (keyBit s.block) (enabled s.block .x) (enabled s.block .y)
            (enabled s.block .z))) := rfl

theorem exec_gen (n : Nat) (s : State) :
    exec (.gen n) s
      = .next (({ s.emit (keysOf n s.block) with block := blockAfter n s.block }).respond
          (.genDone (argField n))) := rfl

/-- Every command is of one of the nine kinds (30_encoding.md R50). -/
theorem instr_family (i : Instr) :
    (∃ r v, i = .loadOf r v) ∨ (∃ r p, i = .atOf r p) ∨ (∃ r p b, i = .setOf r p b)
      ∨ (∃ r, i = .peekOf r) ∨ (∃ r b, i = .shiftOf r b) ∨ (∃ r, i = .updateOf r)
      ∨ (∃ r, i = .showOf r) ∨ i = .step ∨ (∃ n, i = .gen n) := by
  cases i with
  | loadX v => exact .inl ⟨.x, v, rfl⟩
  | loadY v => exact .inl ⟨.y, v, rfl⟩
  | loadZ v => exact .inl ⟨.z, v, rfl⟩
  | atX p => exact .inr (.inl ⟨.x, p, rfl⟩)
  | atY p => exact .inr (.inl ⟨.y, p, rfl⟩)
  | atZ p => exact .inr (.inl ⟨.z, p, rfl⟩)
  | setX p b => exact .inr (.inr (.inl ⟨.x, p, b, rfl⟩))
  | setY p b => exact .inr (.inr (.inl ⟨.y, p, b, rfl⟩))
  | setZ p b => exact .inr (.inr (.inl ⟨.z, p, b, rfl⟩))
  | peekX => exact .inr (.inr (.inr (.inl ⟨.x, rfl⟩)))
  | peekY => exact .inr (.inr (.inr (.inl ⟨.y, rfl⟩)))
  | peekZ => exact .inr (.inr (.inr (.inl ⟨.z, rfl⟩)))
  | shiftX b => exact .inr (.inr (.inr (.inr (.inl ⟨.x, b, rfl⟩))))
  | shiftY b => exact .inr (.inr (.inr (.inr (.inl ⟨.y, b, rfl⟩))))
  | shiftZ b => exact .inr (.inr (.inr (.inr (.inl ⟨.z, b, rfl⟩))))
  | updateX => exact .inr (.inr (.inr (.inr (.inr (.inl ⟨.x, rfl⟩)))))
  | updateY => exact .inr (.inr (.inr (.inr (.inr (.inl ⟨.y, rfl⟩)))))
  | updateZ => exact .inr (.inr (.inr (.inr (.inr (.inl ⟨.z, rfl⟩)))))
  | showX => exact .inr (.inr (.inr (.inr (.inr (.inr (.inl ⟨.x, rfl⟩))))))
  | showY => exact .inr (.inr (.inr (.inr (.inr (.inr (.inl ⟨.y, rfl⟩))))))
  | showZ => exact .inr (.inr (.inr (.inr (.inr (.inr (.inl ⟨.z, rfl⟩))))))
  | step => exact .inr (.inr (.inr (.inr (.inr (.inr (.inr (.inl rfl)))))))
  | gen n => exact .inr (.inr (.inr (.inr (.inr (.inr (.inr (.inr ⟨n, rfl⟩)))))))

@[simp] theorem channelBits_loadOf (r : Reg) (v : Nat) (b : Block) :
    channelBits (.loadOf r v) b = [] := by cases r <;> rfl
@[simp] theorem channelBits_atOf (r : Reg) (p : Nat) (b : Block) :
    channelBits (.atOf r p) b = [] := by cases r <;> rfl
@[simp] theorem channelBits_setOf (r : Reg) (p : Nat) (v : Bool) (b : Block) :
    channelBits (.setOf r p v) b = [] := by cases r <;> rfl
@[simp] theorem channelBits_peekOf (r : Reg) (b : Block) :
    channelBits (.peekOf r) b = [] := by cases r <;> rfl
@[simp] theorem channelBits_shiftOf (r : Reg) (v : Bool) (b : Block) :
    channelBits (.shiftOf r v) b = [] := by cases r <;> rfl
@[simp] theorem channelBits_updateOf (r : Reg) (b : Block) :
    channelBits (.updateOf r) b = [] := by cases r <;> rfl
@[simp] theorem channelBits_showOf (r : Reg) (b : Block) :
    channelBits (.showOf r) b = [] := by cases r <;> rfl
@[simp] theorem channelBits_step (b : Block) : channelBits .step b = [keyBit b] := rfl
@[simp] theorem channelBits_gen (n : Nat) (b : Block) : channelBits (.gen n) b = keysOf n b := rfl

/-- Everything a command can do outside the three registers: it always answers a next state, gives one
response and puts its bits on the channel; the host's inputs, the bits before the last reset and the
number of resets stay. -/
theorem exec_answers (i : Instr) (s : State) :
    ∃ t rsp, exec i s = .next t ∧ t.rsps = s.rsps ++ [responseWord rsp]
      ∧ t.ks = s.ks ++ channelBits i s.block ∧ t.ksBefore = s.ksBefore
      ∧ t.port = s.port ∧ t.resets = s.resets := by
  rcases instr_family i with ⟨r, v, rfl⟩ | ⟨r, p, rfl⟩ | ⟨r, p, b, rfl⟩ | ⟨r, rfl⟩ | ⟨r, b, rfl⟩ |
    ⟨r, rfl⟩ | ⟨r, rfl⟩ | rfl | ⟨n, rfl⟩
  · exact ⟨_, _, exec_loadOf r v s, rfl, by simp, rfl, rfl, rfl⟩
  · by_cases h : p < r.width
    · exact ⟨_, _, exec_atOf_of_lt r s h, rfl, by simp, rfl, rfl, rfl⟩
    · exact ⟨_, _, exec_atOf_of_le r s (Nat.le_of_not_lt h), rfl, by simp, rfl, rfl, rfl⟩
  · by_cases h : p < r.width
    · exact ⟨_, _, exec_setOf_of_lt r b s h, rfl, by simp, rfl, rfl, rfl⟩
    · exact ⟨_, _, exec_setOf_of_le r b s (Nat.le_of_not_lt h), rfl, by simp, rfl, rfl, rfl⟩
  · exact ⟨_, _, exec_peekOf r s, rfl, by simp, rfl, rfl, rfl⟩
  · exact ⟨_, _, exec_shiftOf r b s, rfl, by simp, rfl, rfl, rfl⟩
  · exact ⟨_, _, exec_updateOf r s, rfl, by simp, rfl, rfl, rfl⟩
  · exact ⟨_, _, exec_showOf r s, rfl, by simp, rfl, rfl, rfl⟩
  · exact ⟨_, _, exec_step s, rfl, rfl, rfl, rfl, rfl⟩
  · exact ⟨_, _, exec_gen n s, rfl, rfl, rfl, rfl, rfl⟩

end Sys2Proof.Machine
end

