-- ==== Sys2Proof/Laws/Keystream.lean ====
section
/-! SUPPORT. The steps of a GEN: how many bits, and how runs of steps compose. -/

namespace Sys2Proof.Machine

@[simp] theorem keysOf_length (n : Nat) (b : Block) : (keysOf n b).length = n := by
  induction n generalizing b with
  | zero => rfl
  | succ n ih => simp [keysOf, ih]

theorem blockAfter_add (m n : Nat) (b : Block) :
    blockAfter (m + n) b = blockAfter n (blockAfter m b) := by
  induction m generalizing b with
  | zero => simp [blockAfter]
  | succ m ih => rw [Nat.succ_add]; exact ih (stepBlock b)

theorem keysOf_add (m n : Nat) (b : Block) :
    keysOf (m + n) b = keysOf m b ++ keysOf n (blockAfter m b) := by
  induction m generalizing b with
  | zero => simp [keysOf, blockAfter]
  | succ m ih => rw [Nat.succ_add]; simp [keysOf, blockAfter, ih]

@[simp] theorem stepBlock_get (b : Block) (r : Reg) : (stepBlock b).get r = stepReg b r := by
  cases r <;> rfl

theorem stepReg_of_enabled {b : Block} {r : Reg} (h : enabled b r = true) :
    stepReg b r = clocked r (b.get r) := by simp [stepReg, h]

theorem stepReg_of_not_enabled {b : Block} {r : Reg} (h : enabled b r = false) :
    stepReg b r = b.get r := by simp [stepReg, h]

end Sys2Proof.Machine
end

