-- ==== Sys2Proof/Laws/PerInstr.lean ====
section
/-! SUPPORT. Statements about every command as syntax, one lemma per constructor. -/

/-- The fields written for a command are read as a command of the same row of the opcode table. -/
def Sys2Proof.Laws.FieldsReadBack.Statement (i : Sys2Proof.Instr) : Prop :=
  (Sys2Proof.decodeFields true i.fields).map Sys2Proof.Instr.mnemonic = some i.mnemonic

namespace Sys2Proof.Laws.FieldsReadBack

theorem loadX (v : Nat) : Statement (.loadX v) := rfl
theorem loadY (v : Nat) : Statement (.loadY v) := rfl
theorem loadZ (v : Nat) : Statement (.loadZ v) := rfl
theorem atX (p : Nat) : Statement (.atX p) := rfl
theorem atY (p : Nat) : Statement (.atY p) := rfl
theorem atZ (p : Nat) : Statement (.atZ p) := rfl
theorem setX (p : Nat) (b : Bool) : Statement (.setX p b) := rfl
theorem setY (p : Nat) (b : Bool) : Statement (.setY p b) := rfl
theorem setZ (p : Nat) (b : Bool) : Statement (.setZ p b) := rfl
theorem peekX : Statement .peekX := rfl
theorem peekY : Statement .peekY := rfl
theorem peekZ : Statement .peekZ := rfl
theorem shiftX (b : Bool) : Statement (.shiftX b) := rfl
theorem shiftY (b : Bool) : Statement (.shiftY b) := rfl
theorem shiftZ (b : Bool) : Statement (.shiftZ b) := rfl
theorem updateX : Statement .updateX := rfl
theorem updateY : Statement .updateY := rfl
theorem updateZ : Statement .updateZ := rfl
theorem showX : Statement .showX := rfl
theorem showY : Statement .showY := rfl
theorem showZ : Statement .showZ := rfl
theorem step : Statement .step := rfl
theorem gen (n : Nat) : Statement (.gen n) := rfl

end Sys2Proof.Laws.FieldsReadBack
end

