-- ==== Sys2Proof/Laws/Step.lean ====
section
/-! SUPPORT. What the port does with each input, and what a step leaves at the input pins. -/

namespace Sys2Proof.Machine

@[simp] theorem State.present_block (s : State) (inp : Input) :
    (s.present inp).block = s.block := rfl
@[simp] theorem State.present_ks (s : State) (inp : Input) :
    (s.present inp).ks = s.ks := rfl
@[simp] theorem State.present_ksBefore (s : State) (inp : Input) :
    (s.present inp).ksBefore = s.ksBefore := rfl
@[simp] theorem State.present_rsps (s : State) (inp : Input) :
    (s.present inp).rsps = s.rsps := rfl
@[simp] theorem State.present_resets (s : State) (inp : Input) :
    (s.present inp).resets = s.resets := rfl
@[simp] theorem State.present_port (s : State) (inp : Input) : (s.present inp).port = some inp := rfl

@[simp] theorem State.idle_block (s : State) :
    s.idle.block = s.block := rfl
@[simp] theorem State.idle_ks (s : State) :
    s.idle.ks = s.ks := rfl
@[simp] theorem State.idle_ksBefore (s : State) :
    s.idle.ksBefore = s.ksBefore := rfl
@[simp] theorem State.idle_rsps (s : State) :
    s.idle.rsps = s.rsps := rfl
@[simp] theorem State.idle_resets (s : State) :
    s.idle.resets = s.resets := rfl
@[simp] theorem State.idle_port (s : State) : s.idle.port = none := rfl

theorem State.idle_eq_self {s : State} (h : s.port = none) : s.idle = s := by
  cases s; cases h; rfl

theorem issue_of_decode {hasShow : Bool} {w : Word} {i : Instr} (s : State)
    (h : decode hasShow w = some i) : issue hasShow w s = exec i s := by simp [issue, h]

theorem issue_of_illegal {hasShow : Bool} {w : Word} (s : State) (h : decode hasShow w = none) :
    issue hasShow w s = .next (takeFault .illegalCommand (Fields.ofWord w).arg s) := by
  simp [issue, h]

theorem stepOf_none (hasShow : Bool) {s : State} (h : s.port = none) :
    stepOf hasShow s = .next s := by simp [stepOf, h]

theorem stepOf_some (hasShow : Bool) {s : State} {inp : Input} (h : s.port = some inp) :
    stepOf hasShow s = takeInput hasShow inp s.idle := by simp [stepOf, h]

@[simp] theorem stepOf_present (hasShow : Bool) (s : State) (inp : Input) :
    stepOf hasShow (s.present inp) = takeInput hasShow inp s.idle := rfl

/-- Presenting one input more is one step more. -/
theorem drive_cons_of_next {hasShow : Bool} {inp : Input} {rest : List Input} {s t : State}
    (h : takeInput hasShow inp s.idle = .next t) :
    drive hasShow (inp :: rest) s = drive hasShow rest t := by simp [drive, h]

/-- A command neither reads nor changes what stands at the input pins. -/
theorem exec_with_port (i : Instr) (s : State) (p : Option Input) {t : State}
    (h : exec i s = .next t) : exec i { s with port := p } = .next { t with port := p } := by
  rcases instr_family i with ⟨r, v, rfl⟩ | ⟨r, q, rfl⟩ | ⟨r, q, b, rfl⟩ | ⟨r, rfl⟩ | ⟨r, b, rfl⟩ |
    ⟨r, rfl⟩ | ⟨r, rfl⟩ | rfl | ⟨n, rfl⟩
  · rw [exec_loadOf] at h ⊢; cases h; rfl
  · by_cases hq : q < r.width
    · rw [exec_atOf_of_lt r _ hq] at h ⊢; cases h; rfl
    · rw [exec_atOf_of_le r _ (Nat.le_of_not_lt hq)] at h ⊢; cases h; rfl
  · by_cases hq : q < r.width
    · rw [exec_setOf_of_lt r b _ hq] at h ⊢; cases h; rfl
    · rw [exec_setOf_of_le r b _ (Nat.le_of_not_lt hq)] at h ⊢; cases h; rfl
  · rw [exec_peekOf] at h ⊢; cases h; rfl
  · rw [exec_shiftOf] at h ⊢; cases h; rfl
  · rw [exec_updateOf] at h ⊢; cases h; rfl
  · rw [exec_showOf] at h ⊢; cases h; rfl
  · rw [exec_step] at h ⊢; cases h; rfl
  · rw [exec_gen] at h ⊢; cases h; rfl

/-- What a word on the port leaves at the pins: what stood there, whether it is a command or not. -/
theorem issue_port {hasShow : Bool} {w : Word} {s t : State} (h : issue hasShow w s = .next t) :
    t.port = s.port := by
  cases hd : decode hasShow w with
  | none => rw [issue_of_illegal s hd] at h; cases h; rfl
  | some i =>
    obtain ⟨u, rsp, hu, -, -, -, hp, -⟩ := exec_answers i s
    rw [issue_of_decode s hd, hu] at h
    cases h
    exact hp

/-- What an abandoned command leaves: reset, with some first part of its bits delivered. -/
theorem abandon_eq (hasShow : Bool) (w : Word) (s : State) :
    ∃ k, abandon hasShow w s
      = takeReset (s.emit ((((decode hasShow w).map fun i => channelBits i s.block).getD []).take k)) := by
  refine ⟨Config.abandonedBits s.resets, ?_⟩
  cases h : decode hasShow w with
  | none => simp [abandon, h, State.emit]
  | some i => simp [abandon, h]

/-- A step takes what stands at the pins: they are idle after it. -/
theorem stepOf_port {hasShow : Bool} {s t : State} (h : stepOf hasShow s = .next t) :
    t.port = none := by
  cases hp : s.port with
  | none => rw [stepOf_none hasShow hp] at h; cases h; exact hp
  | some inp =>
    rw [stepOf_some hasShow hp] at h
    cases inp with
    | cmd w => exact issue_port h
    | rst => cases h; rfl
    | cmdThenRst w =>
      obtain ⟨k, hk⟩ := abandon_eq hasShow w s.idle
      simp only [takeInput, hk] at h
      cases h
      rfl

end Sys2Proof.Machine
end

