-- ==== Sys2Proof/Tests/Slice0.lean ====
section
/-! SUPPORT. Tests of one step or one word each, expected results taken from 95_test_vectors.md (the
vector's id is named), 30_encoding.md R59 and 40_bitregister.md; and for each statement with hypotheses a
witness that meets them. -/

namespace Sys2Proof.Tests

open Sys2Proof.Machine Sys2Proof.Safety

/-- A state with these registers and everything else empty. -/
def stateOf (x : BitVec 19) (y : BitVec 22) (z : BitVec 23) : State :=
  ⟨⟨⟨x, y, z⟩, [], [], [], 0⟩, none⟩

/-- S0, the standard start state of 95_test_vectors.md. -/
def s0 : State := stateOf 0x7D555 0x333333 0x70F0F0

/-- The registers a result leaves. -/
def blockOf : Result → Option Block
  | .next t => some t.block
  | .fault _ => none
  | .refused _ => none

/-- The responses a result has given. -/
def rspsOf : Result → Option (List Word)
  | .next t => some t.rsps
  | .fault _ => none
  | .refused _ => none

/-- The keystream a result has. -/
def ksOf : Result → Option (List Bool)
  | .next t => some t.ks
  | .fault _ => none
  | .refused _ => none

/-! Well-formedness: each check refuses an ill-formed term (R53, R54). -/

theorem test_wellFormed_refuses_wide_operand :
    [Instr.loadX 16777216, .loadY 16777216, .loadZ 16777216, .atX 16777216, .atY 16777216,
      .atZ 16777216, .setX 16777216 true, .setY 16777216 true, .setZ 16777216 true,
      .gen 16777216].all (fun i => !i.wellFormed true) = true := by decide

theorem test_wellFormed_refuses_show_where_absent :
    [Instr.showX, .showY, .showZ].all (fun i => !i.wellFormed false) = true := by decide

theorem test_wellFormed_accepts_widest_operand : (Instr.loadX 16777215).wellFormed false = true := by
  decide

/-! Decoding: words written out from the fields op sel rsv v arg of R51 and R52. -/

theorem test_decode_loadX :
    decode true 0b0001_00_0_0_000001111101010101010101 = some (.loadX 0x7D555) := by decide
theorem test_decode_loadY :
    decode true 0b0001_01_0_0_001100110011001100110011 = some (.loadY 0x333333) := by decide
theorem test_decode_loadZ :
    decode true 0b0001_10_0_0_011100001111000011110000 = some (.loadZ 0x70F0F0) := by decide
theorem test_decode_atX :
    decode true 0b0010_00_0_0_000000000000000000001000 = some (.atX 8) := by decide
theorem test_decode_atY :
    decode true 0b0010_01_0_0_000000000000000000010110 = some (.atY 22) := by decide
theorem test_decode_atZ :
    decode true 0b0010_10_0_0_111111111111111111111111 = some (.atZ 16777215) := by decide
theorem test_decode_setX :
    decode true 0b0011_00_0_0_000000000000000000000101 = some (.setX 5 false) := by decide
theorem test_decode_setY :
    decode true 0b0011_01_0_1_001111111111111111111111 = some (.setY 4194303 true) := by decide
theorem test_decode_setZ :
    decode true 0b0011_10_0_1_000000000000000000010110 = some (.setZ 22 true) := by decide
theorem test_decode_peekX :
    decode true 0b0100_00_0_0_000000000000000000000000 = some .peekX := by decide
theorem test_decode_peekY :
    decode true 0b0100_01_0_0_000000000000000000000000 = some .peekY := by decide
theorem test_decode_peekZ :
    decode true 0b0100_10_0_0_000000000000000000000000 = some .peekZ := by decide
theorem test_decode_shiftX :
    decode true 0b0101_00_0_0_000000000000000000000000 = some (.shiftX false) := by decide
theorem test_decode_shiftY :
    decode true 0b0101_01_0_1_000000000000000000000000 = some (.shiftY true) := by decide
theorem test_decode_shiftZ :
    decode true 0b0101_10_0_1_000000000000000000000000 = some (.shiftZ true) := by decide
theorem test_decode_updateX :
    decode true 0b0110_00_0_0_000000000000000000000000 = some .updateX := by decide
theorem test_decode_updateY :
    decode true 0b0110_01_0_0_000000000000000000000000 = some .updateY := by decide
theorem test_decode_updateZ :
    decode true 0b0110_10_0_0_000000000000000000000000 = some .updateZ := by decide
theorem test_decode_showX :
    decode true 0b0111_00_0_0_000000000000000000000000 = some .showX := by decide
theorem test_decode_showY :
    decode true 0b0111_01_0_0_000000000000000000000000 = some .showY := by decide
theorem test_decode_showZ :
    decode true 0b0111_10_0_0_000000000000000000000000 = some .showZ := by decide
theorem test_decode_step :
    decode true 0b1000_00_0_0_000000000000000000000000 = some .step := by decide
theorem test_decode_gen :
    decode true 0b1001_00_0_0_000000000000000000001010 = some (.gen 10) := by decide

/-- FT10 to FT17: illegal words. -/
theorem test_decode_refuses_illegal_words :
    [0x00000000, 0xA0000000, 0x2C000005, 0x2C000063, 0x41000000, 0x80000001, 0x94000003, 0x12000001,
      0xFFFFFFFF].all (fun w => (decode true w).isNone) = true := by decide

/-- FT18: SHOW absent. -/
theorem test_decode_refuses_show_where_absent : decode false 0x70000000 = none := by decide

/-- R59's examples the other way. -/
theorem test_encode_examples :
    [Instr.loadX 0x7D555, .atY 22, .setZ 22 true, .shiftY true, .updateZ, .gen 10].map encode
      = [0x1007D555, 0x24000016, 0x39000016, 0x55000000, 0x68000000, 0x9000000A] := by decide

/-- No two rows of the opcode table share a word (R52): some bit both fix differs. -/
theorem test_opcode_rows_disjoint :
    opcodeTable.Pairwise (fun a b => (a.code ^^^ b.code) &&& a.mask &&& b.mask ≠ 0) := by decide

/-! The BitRegister family. -/

/-- BR7: truncation. -/
theorem test_load_truncates : blockOf (exec (.loadX 0x87D555) s0) = some s0.block := by decide

/-- BR10: only the bit of weight 2^23 set. -/
theorem test_load_drops_weight_23 :
    blockOf (exec (.loadZ 0x800000) s0) = some ⟨0x7D555, 0x333333, 0⟩ := by decide

/-- BR9. -/
theorem test_load_y_truncates :
    blockOf (exec (.loadY 0xFFFFFF) s0) = some ⟨0x7D555, 0x3FFFFF, 0x70F0F0⟩ := by decide

/-- BR3: positions count from the left. -/
theorem test_at_counts_from_the_left :
    [5, 7, 8, 13].map (fun p => rspsOf (exec (.atX p) s0))
      = [some [0x10000000], some [0x10000000], some [0x10000001], some [0x10000000]] := by decide

/-- BR6 and FT3. -/
theorem test_at_z :
    [7, 10, 22, 23].map (fun p => rspsOf (exec (.atZ p) s0))
      = [some [0x10000001], some [0x10000001], some [0x10000000], some [0xF1000017]] := by decide

/-- FT2 and FT4: 19 and 21 are positions of Y, 22 is not. -/
theorem test_at_y_range :
    [19, 21, 22].map (fun p => rspsOf (exec (.atY p) (stateOf 0 0x3FFFFF 0)))
      = [some [0x10000001], some [0x10000001], some [0xF1000016]] := by decide

/-- FT1, FT6 and FT7: no wrap, no mask. -/
theorem test_at_faults_without_wrapping :
    [19, 16777215, 32, 38].map (fun p => rspsOf (exec (.atX p) s0))
      = [some [0xF1000013], some [0xF1FFFFFF], some [0xF1000020], some [0xF1000026]] := by decide

/-- BR11. -/
theorem test_set_one_bit :
    blockOf (exec (.setX 5 true) s0) = some ⟨0x7F555, 0x333333, 0x70F0F0⟩ := by decide

/-- BR12: position 0 is weight 2^18. -/
theorem test_set_position_zero :
    blockOf (exec (.setX 0 false) (stateOf 0x7F555 0 0)) = some ⟨0x3F555, 0, 0⟩ := by decide

/-- FT8: a failed SET writes nothing. -/
theorem test_set_out_of_range :
    exec (.setY 22 true) (stateOf 0 0x3FFFFF 0)
      = .next { stateOf 0 0x3FFFFF 0 with rsps := [0xF1000016] } := rfl

/-- P4 row 4. -/
theorem test_set_y_zero :
    blockOf (exec (.setY 0 false) (stateOf 0 0x3FFFFF 0)) = some ⟨0, 0x1FFFFF, 0⟩ := by decide

/-- By R62: weight 2^0 of Z. -/
theorem test_set_z_last :
    blockOf (exec (.setZ 22 true) (stateOf 0 0 0)) = some ⟨0, 0, 1⟩ := by decide

/-- BR18. -/
theorem test_peek :
    [Instr.peekX, .peekY, .peekZ].map (fun i => rspsOf (exec i s0))
      = [some [0x10000001], some [0x10000001], some [0x10000000]] := by decide

/-- BR13 and BR14. -/
theorem test_shift_y :
    [false, true].map (fun b => blockOf (exec (.shiftY b) s0))
      = [some ⟨0x7D555, 0x266666, 0x70F0F0⟩, some ⟨0x7D555, 0x266667, 0x70F0F0⟩] := by decide

/-- BR15. -/
theorem test_shift_discards_position_zero :
    blockOf (exec (.shiftX false) (stateOf 0x40000 0 0)) = some ⟨0, 0, 0⟩ := by decide

/-- BR17. -/
theorem test_shift_all_ones :
    blockOf (exec (.shiftZ true) (stateOf 0 0 0x7FFFFF)) = some ⟨0, 0, 0x7FFFFF⟩ := by decide

/-- BR19. -/
theorem test_show :
    [Instr.showX, .showY, .showZ].map (fun i => rspsOf (exec i s0))
      = [some [0x3007D555], some [0x34333333], some [0x3870F0F0]] := by decide

/-! The register variants. -/

/-- UP1 and UP12. -/
theorem test_update_x :
    [0x7D555, 0x00020].map (fun x => blockOf (exec .updateX (stateOf x 0 0)))
      = [some ⟨0x7AAAA, 0, 0⟩, some ⟨0x00041, 0, 0⟩] := by decide

/-- UP3 and UP4. -/
theorem test_update_y :
    [0x333333, 0x266666].map (fun y => blockOf (exec .updateY (stateOf 0 y 0)))
      = [some ⟨0, 0x266666, 0⟩, some ⟨0, 0x0CCCCD, 0⟩] := by decide

/-- UP5 and UP6. -/
theorem test_update_z :
    [0x70F0F0, 0x61E1E1].map (fun z => blockOf (exec .updateZ (stateOf 0 0 z)))
      = [some ⟨0, 0, 0x61E1E1⟩, some ⟨0, 0, 0x43C3C2⟩] := by decide

/-- FB6: position 12 of X is not a tap. -/
theorem test_feedback_not_a_tap : feedback .x 0x00040 = false := by decide

/-! The keystream generator. -/

/-- The example of R86, P5 row 3. -/
theorem test_step :
    exec .step s0
      = .next ⟨⟨⟨0x7AAAA, 0x333333, 0x61E1E1⟩, [false], [], [0x2000000A], 0⟩, none⟩ := rfl

/-- P5 row 6: key 1, enables 1 1 0. -/
theorem test_step_key_one :
    rspsOf (exec .step (stateOf 0x75554 0x0CCCCD 0x078784)) = some [0x2000000D] := by decide

/-- The golden sequence of 2.3.3, first bit first. -/
theorem test_gen_golden_keystream :
    ksOf (exec (.gen 10) s0)
      = some [false, false, false, true, false, true, true, false, true, true] := rfl

/-- The state and response after it (P1 row 3). -/
theorem test_gen_golden_state :
    blockOf (exec (.gen 10) s0) = some ⟨0x2AA58, 0x1999B6, 0x787840⟩
      ∧ rspsOf (exec (.gen 10) s0) = some [0x4000000A] := by decide +kernel

/-! The port. -/

/-- FT13: legality before range. -/
theorem test_issue_legality_before_range :
    issue true 0x2C000063 s0 = .next { s0 with rsps := [0xF2000063] } := rfl

/-- P1 row 0 as the first step after reset. -/
theorem test_step_first_command_after_reset :
    step (State.reset.withFetchWord 32 0x1007D555)
      = .next { State.reset with
          block := { State.reset.block with x := 0x7D555 }, rsps := [0x00000000] } := rfl

/-- R120: reset empties the keystream and answers nothing. -/
theorem test_reset_input :
    step { s0 with ks := [true], port := some .rst }
      = .next ⟨⟨Block.atReset 1, [], [true], [], 1⟩, none⟩ := rfl

/-- BR4 as a stream: LOAD.X 1, then AT.X 18, each presented after the one before (R39). -/
theorem test_drive_two_commands :
    rspsOf (drive true [.cmd 0x10000001, .cmd 0x20000012] (stateOf 0 0 0))
      = some [0x00000000, 0x10000001] := by decide

/-- Idle. -/
theorem test_step_idle : step s0 = .next s0 := rfl

/-! The assembler (R57, R59). -/

theorem test_assemble_load :
    assembleLine true "LOAD.X 0x7D555 # P1".toList = some [0x1007D555] := by decide

theorem test_assemble_set : assembleLine true "SET.Z 22, 1".toList = some [0x39000016] := by decide

theorem test_assemble_call_form :
    assembleLine true "X.at(8)".toList = some [0x20000008] := by decide

theorem test_assemble_newgen :
    assembleLine true "NEWGEN 1, 0b10, 3".toList = some [0x10000001, 0x14000002, 0x18000003] := by
  decide

theorem test_assemble_refuses_wide_number :
    assembleLine true "GEN 16777216".toList = none := by decide

theorem test_assemble_refuses_bit_two : assembleLine true "SHIFT.Y 2".toList = none := by decide

/-! Witnesses: for each statement with hypotheses, a case that meets them. -/

theorem witness_AtReadsOneBitOrFaults :
    18 < Reg.width .x ∧ Reg.width .x ≤ 19 ∧ Reg.width .x ≤ 16777215 ∧ 16777215 < 2 ^ 24
      ∧ rspsOf (exec (.atX 18) s0) = some [0x10000001]
      ∧ rspsOf (exec (.atX 19) s0) = some [0xF1000013]
      ∧ rspsOf (exec (.atX 16777215) s0) = some [0xF1FFFFFF] := by decide

theorem witness_SetWritesOneBitOrFaults :
    21 < Reg.width .y ∧ Reg.width .y ≤ 22 ∧ Reg.width .y ≤ 16777215 ∧ 16777215 < 2 ^ 24
      ∧ blockOf (exec (.setY 21 false) s0) = some ⟨0x7D555, 0x333332, 0x70F0F0⟩
      ∧ rspsOf (exec (.setY 22 false) s0) = some [0xF1000016]
      ∧ rspsOf (exec (.setY 16777215 false) s0) = some [0xF1FFFFFF] := by decide

theorem witness_BitRegisterLaws_load :
    ∃ t u, 22 < Reg.width .z ∧ exec (.loadOf .z 5) s0 = .next t ∧ exec (.atOf .z 22) t = .next u :=
  ⟨_, _, by decide, rfl, rfl⟩

theorem witness_BitRegisterLaws_set :
    ∃ t u, 0 < Reg.width .x ∧ 18 < Reg.width .x ∧ exec (.setOf .x 0 false) s0 = .next t
      ∧ exec (.atOf .x 18) t = .next u := ⟨_, _, by decide, by decide, rfl, rfl⟩

theorem witness_BitRegisterLaws_shift :
    ∃ t u, 21 < Reg.width .y ∧ exec (.shiftOf .y true) s0 = .next t
      ∧ exec (.atOf .y 21) t = .next u := ⟨_, _, by decide, rfl, rfl⟩

theorem witness_BitRegisterLaws_read_and_fault :
    (∃ t, exec (.peekOf .z) s0 = .next t)
      ∧ ∃ t, issue true 0x31000013 s0 = .next t ∧ answered s0 t 0xF1000013
        ∧ isFault 0xF1000013 = true := ⟨⟨_, rfl⟩, ⟨_, rfl, rfl, by decide⟩⟩

/-- A position out of range for X and in range for Y. -/
theorem witness_OnlyAtAndSetOutOfRangeFault :
    Reg.width .x ≤ 19 ∧ 19 < 2 ^ 24 ∧ ¬ Reg.width .y ≤ 19
      ∧ rspsOf (exec (.atX 19) s0) = some [0xF1000013] := by
  decide

/-- The shortest length and the longest one the field arg can hold; one step of a length between. -/
theorem witness_GenIsLengthSteps :
    0 < 2 ^ 24 ∧ 16777215 < 2 ^ 24 ∧ 2 < 3
      ∧ rspsOf (exec (.gen 0) s0) = some [0x40000000]
      ∧ rspsOf (exec (.gen 3) s0) = some [0x40000003] := by decide

/-- The smallest operand no word can carry, and one whose low bits would be in range. -/
theorem witness_WideOperandsAnswerTheirLowBits :
    2 ^ 24 ≤ 16777216 ∧ 2 ^ 24 ≤ 16777219
      ∧ rspsOf (exec (.atX 16777216) s0) = some [0xF1000000]
      ∧ rspsOf (exec (.setZ 16777219 true) s0) = some [0xF1000003] := by decide

theorem witness_WideOperandsAnswerTheirLowBits_gen :
    2 ^ 24 ≤ 16777216 ∧ ∃ t, exec (.gen 16777216) s0 = .next t := ⟨by decide, _, rfl⟩

/-- A bit of the abandoned command may be delivered: GEN 3 would have put out three. -/
theorem witness_ResetAbandonsWithoutResponse :
    ∃ u, issue true 0x90000003 s0 = .next u ∧ u.ks.length = 3 := ⟨_, rfl, rfl⟩

theorem witness_ShiftingNBitsReplacesContents :
    (List.replicate 19 true).length = Reg.width .x := by decide

theorem witness_ShiftFixedContents : ∃ t, exec (.shiftOf .x true) s0 = .next t := ⟨_, rfl⟩

theorem witness_FeedbackOrderDoesNotMatter : [18, 17, 16, 13].Perm [13, 16, 17, 18] := by decide

theorem witness_UpdateFixesOnlyAllZero : ∃ t, exec (.updateOf .z) s0 = .next t := ⟨_, rfl⟩

theorem witness_UpdateDependsOnItsRegisterOnly :
    ∃ t t', s0.block.get .x = (stateOf 0x7D555 0 1).block.get .x
      ∧ exec (.updateOf .x) s0 = .next t
      ∧ exec (.updateOf .x) (stateOf 0x7D555 0 1) = .next t' := ⟨_, _, rfl, rfl, rfl⟩

/-- Contents that differ outside the window of Y only. -/
theorem witness_OnlyTheWindowFeedsBack :
    (0x3FFFFF : BitVec 22) ≠ 0x000003
      ∧ ∀ p, lowestTap .y ≤ p → p < Reg.width .y →
          bitAt (0x3FFFFF : BitVec 22) p = bitAt (0x000003 : BitVec 22) p := by
  refine ⟨by decide, fun p hl hu => ?_⟩
  have : p = 20 ∨ p = 21 := by
    simp only [lowestTap, Reg.width] at hl hu
    omega
  rcases this with rfl | rfl <;> decide

/-- Equal windows of different contents, and a zero window of non-zero contents. -/
theorem witness_WindowMapIsBijective :
    window .x 0x00041 = window .x 0x00001 ∧ window .x 0x00040 = 0 := by decide

theorem witness_WindowCyclesOfXAndY :
    Reg.x ≠ .z ∧ Reg.y ≠ .z ∧ window .x 0x00001 ≠ 0 ∧ window .y 0x000001 ≠ 0
      ∧ 15 ∈ cycleLengths .x ∧ 3 ∈ cycleLengths .y := by decide

theorem witness_WindowCyclesOfZ : window .z 0x000001 ≠ 0 := by decide

/-- Both clauses: X of S0 is enabled, Y is not (2.3.1). -/
theorem witness_StepClocksExactlyTheEnabled :
    (∃ t, exec .step s0 = .next t) ∧ enabled s0.block .x = true ∧ enabled s0.block .y = false :=
  ⟨⟨_, rfl⟩, by decide, by decide⟩

theorem witness_OnlyRegistersInfluenceACommand :
    ∃ t t', s0.block = { s0 with ks := [true] }.block ∧ exec (.gen 3) s0 = .next t
      ∧ exec (.gen 3) { s0 with ks := [true] } = .next t' := ⟨_, _, rfl, rfl, rfl⟩

/-- Both cases: all-zero, and KG3's start. -/
theorem witness_GeneratorFixedPoints :
    (∃ t, exec (.gen 16) (stateOf 0 0 0) = .next t)
      ∧ (∃ t, exec (.gen 16) (stateOf 0 0 0x001000) = .next t)
      ∧ (stateOf 0 0 0x001000).block.bit .z 10 = true
      ∧ (stateOf 0 0 0x001000).block.bit .z 22 = false := ⟨⟨_, rfl⟩, ⟨_, rfl⟩, by decide, by decide⟩

theorem witness_OnlyNamedCommandsChangeARegister :
    ∃ t, exec .step s0 = .next t ∧ t.block.get .x ≠ s0.block.get .x := ⟨_, rfl, by decide⟩

theorem witness_OnlyStepAndGenEmit : ∃ t, issue true 0x80000000 s0 = .next t := ⟨_, rfl⟩

/-- Both disjuncts: an out-of-range AT and a word that is no command. -/
theorem witness_FaultCarriesCauseAndInfo :
    (∃ t, issue true 0x20000013 s0 = .next t ∧ answered s0 t 0xF1000013)
      ∧ (∃ t, issue true 0x41000000 s0 = .next t ∧ answered s0 t 0xF2000000)
      ∧ isFault 0xF1000013 = true ∧ isFault 0xF2000000 = true :=
  ⟨⟨_, rfl, rfl⟩, ⟨_, rfl, rfl⟩, by decide, by decide⟩

/-- A word of each clause of the list of R54: op, sel, sel of GEN, rsv, v, arg, SHOW absent. -/
theorem witness_IllegalWordsAreExactlyTheListed :
    illegalByR54 true (0xA0000000 : Word).toNat ∧ illegalByR54 true (0x2C000063 : Word).toNat
      ∧ illegalByR54 true (0x94000003 : Word).toNat ∧ illegalByR54 true (0x12000001 : Word).toNat
      ∧ illegalByR54 true (0x41000000 : Word).toNat ∧ illegalByR54 true (0x80000001 : Word).toNat
      ∧ illegalByR54 false (0x70000000 : Word).toNat :=
  ⟨by decide, by decide, by decide, by decide, by decide, by decide, by decide⟩

theorem witness_FaultLeavesNoTrace :
    ∃ t, issue true 0x35000016 s0 = .next t ∧ answered s0 t 0xF1000016
      ∧ isFault 0xF1000016 = true := ⟨_, rfl, rfl, by decide⟩

theorem witness_CommandAfterFaultRunsNormally :
    ∃ t u u', issue true 0x20000013 s0 = .next t ∧ answered s0 t 0xF1000013
      ∧ isFault 0xF1000013 = true ∧ issue true 0x80000000 t = .next u
      ∧ issue true 0x80000000 s0 = .next u' := ⟨_, _, _, rfl, rfl, by decide, rfl, rfl⟩

theorem witness_LoadedRunsForgetEarlierContents :
    ∃ t t', ([Instr.loadZ 3, .loadX 1, .loadY 2] : List Instr).Perm (newgen 1 2 3)
      ∧ issueAll true ([Instr.loadZ 3, .loadX 1, .loadY 2].map encode ++ [0x80000000]) s0 = .next t
      ∧ issueAll true ([Instr.loadZ 3, .loadX 1, .loadY 2].map encode ++ [0x80000000])
          (stateOf 9 9 9) = .next t' := ⟨_, _, by decide, rfl, rfl⟩

/-- All clauses: a legal word, an illegal one, a word of the opcode table. -/
theorem witness_StepRunsTheDecodedCommand :
    decode Config.hasShow 0x80000000 = some .step ∧ decode Config.hasShow 0x41000000 = none
      ∧ decodeTableWord 32 0x80000000 = some .step := by decide

/-- A step, a command with a word at the pins, and a stream of two on a block whose pins are idle. -/
theorem witness_CommandStreamIsAParameter :
    (∃ t, stepOf true { s0 with port := some (.cmd 0x80000000) } = .next t)
      ∧ (∃ t, exec .step { s0 with port := some .rst } = .next t)
      ∧ s0.port = none ∧ (∃ t, drive true [.cmd 0x80000000, .rst] s0 = .next t) :=
  ⟨⟨_, rfl⟩, ⟨_, rfl⟩, rfl, ⟨_, rfl⟩⟩

/-- A non-empty record of legal responses, and a step that adds to it. -/
theorem witness_StepKeepsResponsesLegal :
    ResponsesLegal { s0 with rsps := [0x20000006], port := some (.cmd 0x90000003) }
      ∧ ∃ t, step { s0 with rsps := [0x20000006], port := some (.cmd 0x90000003) } = .next t := by
  refine ⟨fun w hw => ?_, _, rfl⟩
  have hw' : w = 0x20000006 := by simpa using hw
  subst hw'
  exact .inr (.inr (.inl ⟨false, false, true, true, by decide, by decide⟩))

theorem witness_StepOnlyExtendsOutput :
    ∃ t, step { s0 with ks := [true], port := some (.cmdThenRst 0x90000003) } = .next t := ⟨_, rfl⟩

theorem witness_DecodeOfEncode :
    (Instr.setZ 16777215 true).wellFormed false = true ∧ Instr.showX.wellFormed true = true := by
  decide

theorem witness_EncodeOfDecode : decode true 0x39000016 = some (.setZ 22 true) := by decide

theorem witness_EncodeFollowsTheFormula :
    (Instr.atY 22).wellFormed true = true
      ∧ ∃ i ∈ [Instr.step, .gen 16777216], 2 ^ 24 ≤ (commandFields i).2.2.2 := by decide

theorem witness_OpcodeTableDecides :
    (⟨"GEN", 0xFF000000, 0x90000000⟩ : Row) ∈ opcodeTable
      ∧ (0x9000000A : Word) &&& 0xFF000000 = 0x90000000 := by decide

theorem witness_OperandsAreTheFields :
    decode true 0x1007D555 = some (.loadOf .x 0x7D555) ∧ decode true 0x39000016 = some (.setOf .z 22 true)
      ∧ decode true 0x55000000 = some (.shiftOf .y true) ∧ decode true 0x9000000A = some (.gen 10) := by
  decide

theorem witness_PseudoCommandsAreIdentities :
    ([Instr.loadY 2, .loadZ 3, .loadX 1] : List Instr).Perm (newgen 1 2 3) := by decide

end Sys2Proof.Tests
end

section
/-! The proof for 00_scope.md R4: a register's value is the weighted sum of its bits by logical position. -/

namespace Sys2Proof.Machine

/-- Summing the bits of `m` from the weight 2^(n-1) down gives the low `n` bits of `m`. -/
theorem sum_testBit_mul_two_pow (m n : Nat) :
    ((List.range n).map fun p => (m.testBit (n - 1 - p)).toNat * 2 ^ (n - 1 - p)).sum
      = m % 2 ^ n := by
  induction n with
  | zero => simp [Nat.mod_one]
  | succ n ih =>
    -- position 0 has the weight 2^n; from position 1 on, the weights are those of width n
    have tail_weight (p : Nat) : n + 1 - 1 - (p + 1) = n - 1 - p := by omega
    simp only [List.range_succ_eq_map, List.map_cons, List.map_map, List.sum_cons,
      Function.comp_def, Nat.succ_eq_add_one, tail_weight, ih]
    rw [Nat.add_sub_cancel, Nat.sub_zero, Nat.toNat_testBit, Nat.mod_pow_succ]
    ring

/-- The value view from the position view: val(v) = sum over p of v[p] * 2^(N-1-p). -/
theorem toNat_eq_sum_bitAt {n : Nat} (v : BitVec n) :
    v.toNat = ((List.range n).map fun p => (bitAt v p).toNat * 2 ^ (n - 1 - p)).sum := by
  have bits : (List.range n).map (fun p => (bitAt v p).toNat * 2 ^ (n - 1 - p))
      = (List.range n).map fun p => (v.toNat.testBit (n - 1 - p)).toNat * 2 ^ (n - 1 - p) :=
    List.map_congr_left fun p hp => by rw [bitAt_eq_testBit v (List.mem_range.mp hp)]
  rw [bits, sum_testBit_mul_two_pow, Nat.mod_eq_of_lt v.isLt]

/-- Settles O1: the two views of a register agree bit by bit, and by induction on the width the value
is the weighted sum of the bits. -/
theorem positionsAreBitWeights : Obligations.PositionsAreBitWeights := by
  unfold Obligations.PositionsAreBitWeights
  intro b r
  exact ⟨fun p hp => bitAt_eq_testBit (b.get r) hp, toNat_eq_sum_bitAt (b.get r)⟩

end Sys2Proof.Machine
end

section
/-! The proofs for 10_state.md: which commands change a register (R17), that output is only extended
(R18), that the command stream is a parameter (R19, R20), and the values at reset (R24). -/

namespace Sys2Proof.Machine

open Sys2Proof.Safety

/-! Changes of a register. -/

/-- The commands that write register r and no other: LOAD.r, SET.r, SHIFT.r and UPDATE.r (10_state.md
R17). -/
def WritesReg (r : Reg) (i : Instr) : Prop :=
  (∃ V, i = .loadOf r V) ∨ (∃ p b, i = .setOf r p b) ∨ (∃ b, i = .shiftOf r b) ∨ i = .updateOf r

/-- Everything a command can do to the three registers: nothing, a write of one register by a command
of that register, or as many steps as it puts bits on the channel. -/
theorem exec_block_cases {i : Instr} {s t : State} (h : exec i s = .next t) :
    t.block = s.block
      ∨ (∃ q v, WritesReg q i ∧ t.block = s.block.put q v)
      ∨ ((i = .step ∨ ∃ n, i = .gen n) ∧ t.block = blockAfter (bitCount (some i)) s.block) := by
  rcases instr_family i with ⟨r, v, rfl⟩ | ⟨r, p, rfl⟩ | ⟨r, p, b, rfl⟩ | ⟨r, rfl⟩ | ⟨r, b, rfl⟩ |
    ⟨r, rfl⟩ | ⟨r, rfl⟩ | rfl | ⟨n, rfl⟩
  · rw [exec_loadOf] at h; cases h
    exact .inr (.inl ⟨r, _, .inl ⟨v, rfl⟩, rfl⟩)
  · rcases Nat.lt_or_ge p r.width with hp | hp
    · rw [exec_atOf_of_lt r s hp] at h; cases h; exact .inl rfl
    · rw [exec_atOf_of_le r s hp] at h; cases h; exact .inl rfl
  · rcases Nat.lt_or_ge p r.width with hp | hp
    · rw [exec_setOf_of_lt r b s hp] at h; cases h
      exact .inr (.inl ⟨r, _, .inr (.inl ⟨p, b, rfl⟩), rfl⟩)
    · rw [exec_setOf_of_le r b s hp] at h; cases h; exact .inl rfl
  · rw [exec_peekOf] at h; cases h; exact .inl rfl
  · rw [exec_shiftOf] at h; cases h
    exact .inr (.inl ⟨r, _, .inr (.inr (.inl ⟨b, rfl⟩)), rfl⟩)
  · rw [exec_updateOf] at h; cases h
    exact .inr (.inl ⟨r, _, .inr (.inr (.inr rfl)), rfl⟩)
  · rw [exec_showOf] at h; cases h; exact .inl rfl
  · rw [exec_step] at h; cases h
    exact .inr (.inr ⟨.inl rfl, rfl⟩)
  · rw [exec_gen] at h; cases h
    exact .inr (.inr ⟨.inr ⟨n, rfl⟩, rfl⟩)

/-- A step clocks each register once or not at all, so n steps clock it at most n times
(42_keystream_generator.md R84, R87). -/
theorem blockAfter_get_eq_clockedTimes (r : Reg) (n : Nat) (b : Block) :
    ∃ k, k ≤ n ∧ (blockAfter n b).get r = clockedTimes r k (b.get r) := by
  induction n generalizing b with
  | zero => exact ⟨0, Nat.le_refl 0, rfl⟩
  | succ n ih =>
    obtain ⟨k, hk, hget⟩ := ih (stepBlock b)
    rw [stepBlock_get] at hget
    cases he : enabled b r with
    | true => exact ⟨k + 1, Nat.succ_le_succ hk, by rw [stepReg_of_enabled he] at hget; exact hget⟩
    | false => exact ⟨k, Nat.le_succ_of_le hk, by rw [stepReg_of_not_enabled he] at hget; exact hget⟩

/-- Settles O31: a command that changes r either writes one register, which must be r as the others are
kept, or performs steps, which only clock r. -/
theorem onlyNamedCommandsChangeARegister : Obligations.OnlyNamedCommandsChangeARegister := by
  unfold Obligations.OnlyNamedCommandsChangeARegister
  intro i s t r h hne
  rcases exec_block_cases h with hkept | ⟨q, v, hw, hput⟩ | ⟨hi, hsteps⟩
  · exact absurd (by rw [hkept]) hne
  · have hq : r = q := by
      by_contra hrq
      exact hne (by rw [hput, Block.get_put_other s.block q r v hrq])
    subst hq
    rcases hw with hw | hw | hw | hw
    · exact .inl hw
    · exact .inr (.inl hw)
    · exact .inr (.inr (.inl hw))
    · exact .inr (.inr (.inr (.inl hw)))
  · rw [hsteps]
    exact .inr (.inr (.inr (.inr ⟨hi, blockAfter_get_eq_clockedTimes r _ s.block⟩)))

/-! Output. -/

/-- Every word on the port, a command or not, gives a next state with one more response, its bits
appended to the keystream and the bits before the last reset kept. -/
theorem issue_answers (hasShow : Bool) (w : Word) (s : State) :
    ∃ t rsp bits, issue hasShow w s = .next t ∧ t.rsps = s.rsps ++ [responseWord rsp]
      ∧ t.ks = s.ks ++ bits ∧ t.ksBefore = s.ksBefore := by
  cases hd : decode hasShow w with
  | none => exact ⟨_, _, [], issue_of_illegal s hd, rfl, (List.append_nil _).symm, rfl⟩
  | some i =>
    obtain ⟨t, rsp, ht, hrsps, hks, hbefore, -, -⟩ := exec_answers i s
    exact ⟨t, rsp, _, (issue_of_decode s hd).trans ht, hrsps, hks, hbefore⟩

/-- The bits delivered and the responses of t are those of s followed by new ones. -/
def OutputExtends (s t : State) : Prop :=
  (∃ bits, t.ksBefore ++ t.ks = s.ksBefore ++ s.ks ++ bits) ∧ ∃ ws, t.rsps = s.rsps ++ ws

theorem outputExtends_refl (s : State) : OutputExtends s s := ⟨⟨[], by simp⟩, [], by simp⟩

theorem outputExtends_of_issue {hasShow : Bool} {w : Word} {s t : State}
    (h : issue hasShow w s = .next t) : OutputExtends s t := by
  obtain ⟨u, rsp, bits, hu, hrsps, hks, hbefore⟩ := issue_answers hasShow w s
  rw [hu] at h
  cases h
  exact ⟨⟨bits, by rw [hbefore, hks, List.append_assoc]⟩, _, hrsps⟩

/-- A reset, after whatever bits an abandoned command has put out, moves the keystream to the bits before
it and answers nothing (70_reset_and_hazards.md R120). -/
theorem outputExtends_takeReset_emit (s : State) (bits : List Bool) :
    OutputExtends s (takeReset (s.emit bits)) := ⟨⟨bits, by simp⟩, [], by simp⟩

theorem outputExtends_of_takeInput {hasShow : Bool} {inp : Input} {s t : State}
    (h : takeInput hasShow inp s = .next t) : OutputExtends s t := by
  cases inp with
  | cmd w => exact outputExtends_of_issue h
  | rst =>
    cases h
    simpa [State.emit] using outputExtends_takeReset_emit s []
  | cmdThenRst w =>
    obtain ⟨k, hk⟩ := abandon_eq hasShow w s
    simp only [takeInput, hk] at h
    cases h
    exact outputExtends_takeReset_emit s _

theorem outputExtends_of_stepOf {hasShow : Bool} {s t : State} (h : stepOf hasShow s = .next t) :
    OutputExtends s t := by
  cases hp : s.port with
  | none =>
    rw [stepOf_none hasShow hp] at h
    cases h
    exact outputExtends_refl s
  | some inp =>
    rw [stepOf_some hasShow hp] at h
    -- taking the input from the pins puts nothing out
    exact outputExtends_of_takeInput (s := s.idle) h

/-- Settles O46: by cases on what stands at the pins; a command appends, and a reset moves `ks` to the end
of `ksBefore`. -/
theorem stepOnlyExtendsOutput : Obligations.StepOnlyExtendsOutput := by
  unfold Obligations.StepOnlyExtendsOutput
  exact fun s t h => outputExtends_of_stepOf (hasShow := Config.hasShow) h

/-! The command stream. -/

/-- Driving a block whose pins are idle with command words is running the words in list order
(20_memory.md R39): by induction on the stream, the pins being idle again after every word. -/
theorem drive_map_cmd (hasShow : Bool) (ws : List Word) (s : State) (h : s.port = none) :
    drive hasShow (ws.map .cmd) s = issueAll hasShow ws s := by
  induction ws generalizing s with
  | nil => rfl
  | cons w ws ih =>
    obtain ⟨t, -, -, ht, -⟩ := issue_answers hasShow w s
    have taken : takeInput hasShow (.cmd w) s.idle = .next t := by
      rw [State.idle_eq_self h]; exact ht
    calc drive hasShow ((w :: ws).map .cmd) s
        = drive hasShow (ws.map .cmd) t := drive_cons_of_next taken
      _ = issueAll hasShow ws t := ih t ((issue_port ht).trans h)
      _ = issueAll hasShow (w :: ws) s := by simp only [issueAll, ht]

/-- A longer stream goes on from where the shorter one ended. -/
theorem drive_append {hasShow : Bool} {a : List Input} (b : List Input) {s t : State}
    (h : drive hasShow a s = .next t) : drive hasShow (a ++ b) s = drive hasShow b t := by
  induction a generalizing s with
  | nil => cases h; rfl
  | cons inp a ih =>
    cases hstep : takeInput hasShow inp s.idle with
    | next u =>
      rw [drive_cons_of_next hstep] at h
      exact (drive_cons_of_next hstep).trans (ih h)
    | fault f => simp [drive, hstep] at h
    | refused f => simp [drive, hstep] at h

/-- Settles O56: a step idles the pins, a command neither reads nor changes them, and the run of a stream
is by induction on it. -/
theorem commandStreamIsAParameter : Obligations.CommandStreamIsAParameter := by
  unfold Obligations.CommandStreamIsAParameter
  intro hasShow s t
  exact ⟨stepOf_port, fun i p h => exec_with_port i s p h,
    fun ws h => drive_map_cmd hasShow ws s h, fun _ b h => drive_append b h⟩

/-! Reset. -/

@[simp] theorem State.reset_ks : State.reset.ks = [] := rfl
@[simp] theorem State.reset_ksBefore : State.reset.ksBefore = [] := rfl
@[simp] theorem State.reset_rsps : State.reset.rsps = [] := rfl
@[simp] theorem State.reset_port : State.reset.port = none := rfl

/-- Settles O41, one field at a time. -/
theorem resetKeystreamIsEmpty : Obligations.ResetKeystreamIsEmpty :=
  ⟨State.reset_ks, State.reset_ksBefore, State.reset_rsps, State.reset_port⟩

/-- Settles O45: the record of responses at reset is empty. -/
theorem resetResponsesLegal : Obligations.ResetResponsesLegal := by
  unfold Obligations.ResetResponsesLegal ResponsesLegal
  rw [State.reset_rsps]
  exact fun _ hw => absurd hw List.not_mem_nil

end Sys2Proof.Machine
end

section
/-! The proof for 20_memory.md R39: a step runs the command whose word stands at the input pins, and
answers IllegalCommand to a word that is none (R102). -/

namespace Sys2Proof.Machine

open Sys2Proof.Safety

/-- All 32 bits of a word, placed as the opcode table numbers them, are the word. -/
theorem tableWord_toNat (w : Word) : tableWord 32 w.toNat = w := by
  rw [tableWord, Nat.mod_eq_of_lt w.isLt, BitVec.ofNat_toNat, BitVec.setWidth_eq]

theorem decodeTableWord_toNat (w : Word) : decodeTableWord 32 w.toNat = decode Config.hasShow w := by
  rw [decodeTableWord, tableWord_toNat]

theorem State.withFetchWord_toNat (s : State) (w : Word) :
    s.withFetchWord 32 w.toNat = s.present (.cmd w) := by
  rw [State.withFetchWord, tableWord_toNat]

theorem step_present_cmd (s : State) (w : Word) :
    step (s.present (.cmd w)) = issue Config.hasShow w s.idle :=
  stepOf_present Config.hasShow s (.cmd w)

theorem step_idle (s : State) : step s.idle = .next s.idle :=
  stepOf_none Config.hasShow s.idle_port

theorem step_present_of_decode {w : Word} {i : Instr} (s : State)
    (h : decode Config.hasShow w = some i) : step (s.present (.cmd w)) = exec i s.idle :=
  (step_present_cmd s w).trans (issue_of_decode s.idle h)

/-- A FAULT word takes only the low 24 bits of its info, so the operand field of a word and the whole
word give the same one (60_exceptions.md R101). -/
theorem faultWord_mod (cause n : Nat) : faultWord cause (n % 2 ^ 24) = faultWord cause n := by
  have low : n % 2 ^ 24 % 0x1000000 = n % 0x1000000 := Nat.mod_mod n 0x1000000
  rw [faultWord, faultWord, low]

/-- The response to an illegal word: cause 2, and the word's low 24 bits (60_exceptions.md R101, R102). -/
theorem responseWord_illegal (w : Word) :
    responseWord (.faulted .illegalCommand (Fields.ofWord w).arg) = faultWord 2 w.toNat := by
  rw [responseWord_faulted, Fields.toNat_arg, faultWord_mod]
  rfl

/-- An illegal word appends its one response to the record and changes nothing else. -/
theorem issue_illegal_eq_append {hasShow : Bool} {w : Word} (s : State)
    (h : decode hasShow w = none) :
    issue hasShow w s = .next { s with rsps := s.rsps ++ [faultWord 2 w.toNat] } := by
  rw [issue_of_illegal s h, takeFault, State.respond, responseWord_illegal]

/-- Settles O43: by what stands at the pins, a word that decodes, a word that does not, or nothing; a word
placed by `withFetchWord` is a word at the pins. -/
theorem stepRunsTheDecodedCommand : Obligations.StepRunsTheDecodedCommand := by
  unfold Obligations.StepRunsTheDecodedCommand
  intro s w i
  refine ⟨step_present_of_decode s, fun illegal => ?_, step_idle s, fun table => ?_⟩
  · exact (step_present_cmd s w).trans (issue_illegal_eq_append s.idle illegal)
  · rw [State.withFetchWord_toNat]
    exact step_present_of_decode s (decodeTableWord_toNat w ▸ table)

end Sys2Proof.Machine
end

section
/-! The proofs for 30_encoding.md: the command word (R51 to R54, R59). A word and a command stand for each
other through the numbers op, sel, v and arg that the rules give the command (`commandFields`). -/

namespace Sys2Proof.Machine

open Sys2Proof.Safety

/-! The numbers of a command, family by family. -/

@[simp] theorem commandFields_loadOf (r : Reg) (v : Nat) :
    commandFields (.loadOf r v) = (0x1, selNumber r, false, v) := by cases r <;> rfl
@[simp] theorem commandFields_atOf (r : Reg) (p : Nat) :
    commandFields (.atOf r p) = (0x2, selNumber r, false, p) := by cases r <;> rfl
@[simp] theorem commandFields_setOf (r : Reg) (p : Nat) (b : Bool) :
    commandFields (.setOf r p b) = (0x3, selNumber r, b, p) := by cases r <;> rfl
@[simp] theorem commandFields_peekOf (r : Reg) :
    commandFields (.peekOf r) = (0x4, selNumber r, false, 0) := by cases r <;> rfl
@[simp] theorem commandFields_shiftOf (r : Reg) (b : Bool) :
    commandFields (.shiftOf r b) = (0x5, selNumber r, b, 0) := by cases r <;> rfl
@[simp] theorem commandFields_updateOf (r : Reg) :
    commandFields (.updateOf r) = (0x6, selNumber r, false, 0) := by cases r <;> rfl
@[simp] theorem commandFields_showOf (r : Reg) :
    commandFields (.showOf r) = (0x7, selNumber r, false, 0) := by cases r <;> rfl
@[simp] theorem commandFields_step : commandFields .step = (0x8, 0, false, 0) := rfl
@[simp] theorem commandFields_gen (n : Nat) : commandFields (.gen n) = (0x9, 0, false, n) := rfl

/-- The model's fields of a command are the rules' numbers, each at its field's width. -/
theorem fields_eq_commandFields (i : Instr) :
    i.fields = ⟨BitVec.ofNat 4 (commandFields i).1, BitVec.ofNat 2 (commandFields i).2.1, false,
      (commandFields i).2.2.1, BitVec.ofNat 24 (commandFields i).2.2.2⟩ := by cases i <;> rfl

theorem commandFields_sel_lt (i : Instr) : (commandFields i).2.1 < 4 := by
  cases i <;> simp [commandFields]

theorem argFits_iff (v : Nat) : argFits v = true ↔ v < 2 ^ 24 := decide_eq_true_iff

/-- A command has a word when its operand fits the field arg and, for SHOW, the block has it. -/
theorem wellFormed_iff (hasShow : Bool) (i : Instr) :
    i.wellFormed hasShow = true ↔
      (commandFields i).2.2.2 < 2 ^ 24 ∧ ((commandFields i).1 = 0x7 → hasShow = true) := by
  cases i <;> simp [Instr.wellFormed, argFits_iff, commandFields]

/-! The pieces of the decoder. -/

theorem ifUnused_eq_some_iff {α : Type} {unused : Bool} {answer : Option α} {a : α} :
    ifUnused unused answer = some a ↔ unused = true ∧ answer = some a := by
  cases unused <;> simp [ifUnused]

theorem ifUnused_eq_none_iff {α : Type} {unused : Bool} {answer : Option α} :
    ifUnused unused answer = none ↔ unused = false ∨ answer = none := by
  cases unused <;> simp [ifUnused]

theorem ofSel_eq_none_iff (c : BitVec 2) : Reg.ofSel c = none ↔ c.toNat = 3 := by
  revert c; decide

theorem ofCode_eq_none_iff (c : BitVec 4) :
    Op.ofCode c = none ↔ c.toNat = 0 ∨ 0xA ≤ c.toNat := by
  revert c; decide

/-- A selector that names a register is the register's number (R53). -/
theorem selNumber_of_ofSel {c : BitVec 2} {r : Reg} (h : Reg.ofSel c = some r) :
    selNumber r = c.toNat := by
  rw [← Reg.sel_of_ofSel h]
  cases r <;> rfl

theorem opShow_of_code {op : Op} (h : op.code.toNat = 0x7) : op = .opShow := by
  revert h; cases op <;> decide

/-! Decoding and encoding. -/

/-- A decoded command has the numbers it was decoded from, and is no SHOW in a block without one. -/
theorem commandFields_of_decodeOp {hasShow : Bool} {f : Fields} {op : Op} {i : Instr}
    (h : decodeOp hasShow f op = some i) :
    commandFields i = (op.code.toNat, f.sel.toNat, f.v, f.arg.toNat)
      ∧ (op = .opShow → hasShow = true) := by
  cases op <;>
    simp only [decodeOp, ifUnused_eq_some_iff, Option.map_eq_some_iff, Option.some.injEq,
      Bool.and_eq_true, Bool.not_eq_true', beq_iff_eq] at h
  case opLoad =>
    obtain ⟨hv, r, hr, rfl⟩ := h
    simp [Op.code, selNumber_of_ofSel hr, hv]
  case opAt =>
    obtain ⟨hv, r, hr, rfl⟩ := h
    simp [Op.code, selNumber_of_ofSel hr, hv]
  case opSet =>
    obtain ⟨r, hr, rfl⟩ := h
    simp [Op.code, selNumber_of_ofSel hr]
  case opPeek =>
    obtain ⟨⟨hv, harg⟩, r, hr, rfl⟩ := h
    simp [Op.code, selNumber_of_ofSel hr, hv, harg]
  case opShift =>
    obtain ⟨harg, r, hr, rfl⟩ := h
    simp [Op.code, selNumber_of_ofSel hr, harg]
  case opUpdate =>
    obtain ⟨⟨hv, harg⟩, r, hr, rfl⟩ := h
    simp [Op.code, selNumber_of_ofSel hr, hv, harg]
  case opShow =>
    obtain ⟨⟨⟨hshow, hv⟩, harg⟩, r, hr, rfl⟩ := h
    simp [Op.code, selNumber_of_ofSel hr, hv, harg, hshow]
  case opStep =>
    obtain ⟨⟨⟨hsel, hv⟩, harg⟩, rfl⟩ := h
    simp [Op.code, hsel, hv, harg]
  case opGen =>
    obtain ⟨⟨hsel, hv⟩, rfl⟩ := h
    simp [Op.code, hsel, hv]

/-- The same of a word's fields: the decoded command has their numbers. -/
theorem commandFields_of_decodeFields {hasShow : Bool} {f : Fields} {i : Instr}
    (h : decodeFields hasShow f = some i) :
    commandFields i = (f.op.toNat, f.sel.toNat, f.v, f.arg.toNat) ∧ f.rsv = false
      ∧ (f.op.toNat = 0x7 → hasShow = true) := by
  simp only [decodeFields, ifUnused_eq_some_iff, Option.bind_eq_some_iff, Bool.not_eq_true'] at h
  obtain ⟨hrsv, op, hcode, hop⟩ := h
  obtain ⟨hfields, hshow⟩ := commandFields_of_decodeOp hop
  rw [← Op.code_of_ofCode hcode]
  exact ⟨hfields, hrsv, fun h7 => hshow (opShow_of_code h7)⟩

theorem wellFormed_of_decodeFields {hasShow : Bool} {f : Fields} {i : Instr}
    (h : decodeFields hasShow f = some i) : i.wellFormed hasShow = true := by
  obtain ⟨hfields, -, hshow⟩ := commandFields_of_decodeFields h
  rw [wellFormed_iff, hfields]
  exact ⟨f.arg.isLt, hshow⟩

theorem fields_of_decodeFields {hasShow : Bool} {f : Fields} {i : Instr}
    (h : decodeFields hasShow f = some i) : i.fields = f := by
  obtain ⟨hfields, hrsv, -⟩ := commandFields_of_decodeFields h
  rw [fields_eq_commandFields, hfields]
  simp [← hrsv]

/-- The operation, the register and the operand are each read back from their own field. -/
theorem decodeFields_fields {hasShow : Bool} {i : Instr} (h : i.wellFormed hasShow = true) :
    decodeFields hasShow i.fields = some i := by
  obtain ⟨hfits, hshow⟩ := (wellFormed_iff hasShow i).mp h
  have operand : (BitVec.ofNat 24 (commandFields i).2.2.2).toNat = (commandFields i).2.2.2 := by
    rw [BitVec.toNat_ofNat, Nat.mod_eq_of_lt hfits]
  rw [fields_eq_commandFields, decodeFields]
  generalize BitVec.ofNat 24 (commandFields i).2.2.2 = arg at operand
  have unused (h0 : (commandFields i).2.2.2 = 0) : arg = 0#24 :=
    BitVec.eq_of_toNat_eq (operand.trans h0)
  rcases instr_family i with ⟨r, v, rfl⟩ | ⟨r, p, rfl⟩ | ⟨r, p, b, rfl⟩ | ⟨r, rfl⟩ | ⟨r, b, rfl⟩ |
    ⟨r, rfl⟩ | ⟨r, rfl⟩ | rfl | ⟨n, rfl⟩
  · simp [Op.ofCode, decodeOp, ifUnused, ofNat_selNumber, operand]
  · simp [Op.ofCode, decodeOp, ifUnused, ofNat_selNumber, operand]
  · simp [Op.ofCode, decodeOp, ifUnused, ofNat_selNumber, operand]
  · simp [Op.ofCode, decodeOp, ifUnused, ofNat_selNumber, unused]
  · simp [Op.ofCode, decodeOp, ifUnused, ofNat_selNumber, unused]
  · simp [Op.ofCode, decodeOp, ifUnused, ofNat_selNumber, unused]
  · simp [Op.ofCode, decodeOp, ifUnused, ofNat_selNumber, unused, hshow]
  · simp [Op.ofCode, decodeOp, ifUnused, unused rfl]
  · simp [Op.ofCode, decodeOp, ifUnused, operand]

/-- Settles O48: the word's fields are the command's, and each is read back from its own place. -/
theorem decodeOfEncode : Obligations.DecodeOfEncode := by
  unfold Obligations.DecodeOfEncode
  intro hasShow i h
  rw [encode, decode, Fields.ofWord_toWord]
  exact decodeFields_fields h

/-- Settles O49: a word that decodes has the fields of its command, and a word is its fields. -/
theorem encodeOfDecode : Obligations.EncodeOfDecode := by
  unfold Obligations.EncodeOfDecode
  intro hasShow w i h
  exact ⟨wellFormed_of_decodeFields h,
    by rw [encode, fields_of_decodeFields h, Fields.toWord_ofWord]⟩

/-- The numbers of a decoded command stand at the places of R51 in its word. -/
theorem commandFields_of_decode {hasShow : Bool} {w : Word} {i : Instr}
    (h : decode hasShow w = some i) :
    commandFields i
      = (w.toNat / 2 ^ 28, w.toNat / 2 ^ 26 % 4, w.toNat.testBit 24, w.toNat % 2 ^ 24) := by
  rw [(commandFields_of_decodeFields h).1, Fields.toNat_op, Fields.toNat_sel, Fields.toNat_arg]
  rfl

/-- Settles O52: each operand of a decoded command is one of its numbers, which stand in the word. -/
theorem operandsAreTheFields : Obligations.OperandsAreTheFields := by
  unfold Obligations.OperandsAreTheFields
  intro hasShow w r n b
  have hlt : w.toNat % 2 ^ 24 < 2 ^ 24 := Nat.mod_lt _ (by decide)
  refine ⟨fun h => ?_, fun h => ?_, fun h => ?_⟩
  · have harg : n = w.toNat % 2 ^ 24 := by
      rcases h with h | h | h | h <;> simpa using congrArg (·.2.2.2) (commandFields_of_decode h)
    omega
  · rcases h with h | h <;> simpa using congrArg (·.2.2.1) (commandFields_of_decode h)
  · rcases h with h | h | h | h | h | h | h <;>
      simpa using congrArg (·.2.1) (commandFields_of_decode h)

theorem bitOperand_eq_none_iff (n : Nat) : bitOperand n = none ↔ n ≠ 0 ∧ n ≠ 1 := by
  match n with
  | 0 => simp [bitOperand]
  | 1 => simp [bitOperand]
  | n + 2 => simp [bitOperand]

/-- Settles O50: the formula's word is the word of its fields, and the assembler takes only well-formed
commands. -/
theorem encodeFollowsTheFormula : Obligations.EncodeFollowsTheFormula := by
  unfold Obligations.EncodeFollowsTheFormula
  refine ⟨fun i _ => ?_, fun hasShow is ⟨i, hi, hwide⟩ => ?_, bitOperand_eq_none_iff⟩
  · rw [encode, fields_eq_commandFields, commandWord_eq_toWord _ _ (commandFields_sel_lt i)]
  · have refused : ¬ is.all (Instr.wellFormed hasShow) = true := fun hall =>
      Nat.not_lt.mpr hwide ((wellFormed_iff hasShow i).mp (List.all_eq_true.mp hall i hi)).1
    rw [wordsOf, if_neg refused]

/-! The illegal words. -/

/-- With an assigned operation, the list of R54 is what that operation asks of the other fields. -/
theorem decodeOp_eq_none_iff (hasShow : Bool) (f : Fields) (op : Op) :
    decodeOp hasShow f op = none ↔
      illegalFields hasShow op.code.toNat f.sel.toNat 0 f.v.toNat f.arg.toNat := by
  obtain ⟨c, sel, rsv, v, arg⟩ := f
  have harg : arg = 0 ↔ arg.toNat = 0 := by bv_omega
  have hsel : sel = 0 ↔ sel.toNat = 0 := by bv_omega
  cases op <;>
    simp only [decodeOp, ifUnused_eq_none_iff, Option.map_eq_none_iff, ofSel_eq_none_iff, Op.code,
      illegalFields, Bool.and_eq_false_iff, Bool.not_eq_false', beq_eq_false_iff_ne, ne_eq, harg, hsel,
      reduceCtorEq]
  all_goals grind

theorem decodeFields_eq_none_iff (hasShow : Bool) (f : Fields) :
    decodeFields hasShow f = none ↔
      illegalFields hasShow f.op.toNat f.sel.toNat f.rsv.toNat f.v.toNat f.arg.toNat := by
  rw [decodeFields, ifUnused_eq_none_iff]
  cases hop : Op.ofCode f.op with
  | none =>
    have unassigned := (ofCode_eq_none_iff f.op).mp hop
    exact iff_of_true (.inr rfl) (.inl unassigned)
  | some op =>
    rw [Option.bind_some, decodeOp_eq_none_iff, Op.code_of_ofCode hop]
    cases hrsv : f.rsv <;> simp [illegalFields]

/-- A word decodes to no command exactly when R54 lists it. -/
theorem decode_eq_none_iff (hasShow : Bool) (w : Word) :
    decode hasShow w = none ↔ illegalByR54 hasShow w.toNat := by
  rw [decode, decodeFields_eq_none_iff, Fields.toNat_op, Fields.toNat_sel, Fields.toNat_rsv,
    Fields.toNat_v, Fields.toNat_arg]

/-- Settles O36: the decoder's checks are the list of R54, and a word that decodes to nothing is answered
IllegalCommand. -/
theorem illegalWordsAreExactlyTheListed : Obligations.IllegalWordsAreExactlyTheListed := by
  unfold Obligations.IllegalWordsAreExactlyTheListed
  refine ⟨decode_eq_none_iff, fun hasShow w s illegal => ?_, fun hasShow => ?_⟩
  · rw [faultWord_mod]
    exact issue_illegal_eq_append s ((decode_eq_none_iff hasShow w).mpr illegal)
  · exact ⟨(decode_eq_none_iff hasShow _).mpr (.inl (by decide)),
      (decode_eq_none_iff hasShow _).mpr (.inl (by decide))⟩

/-! The examples of R59. -/

/-- Settles O47, by running the decoder on each word. -/
theorem sampleWordsDecode : Obligations.SampleWordsDecode := by
  unfold Obligations.SampleWordsDecode
  decide

/-- Settles O54, by running the assembler on each text. -/
theorem assemblerReadsTheExamples : Obligations.AssemblerReadsTheExamples := by
  unfold Obligations.AssemblerReadsTheExamples
  decide

end Sys2Proof.Machine
end

section
/-! The proofs for 30_encoding.md R52: the opcode map, row by row, against the decoder. -/

namespace Sys2Proof.Machine

open Sys2Proof.Safety

/-- SET and SHIFT take a bit operand, so their words may hold anything in the field v (R54). -/
def takesBit (op : BitVec 4) : Bool := op == 3 || op == 5

/-- LOAD, AT, SET and GEN take a number, so their words may hold anything in the field arg (R54). -/
def takesNumber (op : BitVec 4) : Bool := op == 1 || op == 2 || op == 3 || op == 9

/-- The bits of a word that are fixed for every command of an operation: all but those of its operands
(R52). -/
def fixedFields (op : BitVec 4) : Fields :=
  ⟨0xF, 3, true, !takesBit op, if takesNumber op then 0 else BitVec.allOnes 24⟩

/-- The row of the opcode map that a command belongs to, from the command's own fields. -/
def rowOf (i : Instr) : Row :=
  ⟨i.mnemonic, (fixedFields i.fields.op).toWord,
    Fields.toWord ⟨i.fields.op, i.fields.sel, false, false, 0⟩⟩

/-- A command of each row. -/
def rowSamples : List Instr :=
  [.loadX 0, .loadY 0, .loadZ 0, .atX 0, .atY 0, .atZ 0, .setX 0 false, .setY 0 false, .setZ 0 false,
    .peekX, .peekY, .peekZ, .shiftX false, .shiftY false, .shiftZ false, .updateX, .updateY, .updateZ,
    .showX, .showY, .showZ, .step, .gen 0]

theorem opcodeTable_eq_map : opcodeTable = rowSamples.map rowOf := by decide

theorem rowOf_mem_opcodeTable (i : Instr) : rowOf i ∈ opcodeTable := by
  rw [opcodeTable_eq_map]
  cases i <;> simp [rowSamples, rowOf, Instr.mnemonic, Instr.fields]

theorem exists_rowOf_eq {row : Row} (h : row ∈ opcodeTable) : ∃ i, rowOf i = row := by
  rw [opcodeTable_eq_map] at h
  obtain ⟨i, -, hi⟩ := List.mem_map.mp h
  exact ⟨i, hi⟩

theorem opcodeTable_mnemonics_nodup : (opcodeTable.map Row.mnemonic).Nodup := by decide

/-- Two rows that agree on the bits both fix are one row. -/
theorem rows_eq_of_codes_agree : ∀ a ∈ opcodeTable, ∀ b ∈ opcodeTable,
    a.code &&& b.mask = b.code &&& a.mask → a = b := by decide

/-! Fitting a row is decoding to a command of the row. -/

/-- ANDing two words is ANDing them field by field. -/
theorem ofWord_and (w m : Word) :
    Fields.ofWord (w &&& m)
      = ⟨(Fields.ofWord w).op &&& (Fields.ofWord m).op, (Fields.ofWord w).sel &&& (Fields.ofWord m).sel,
        (Fields.ofWord w).rsv && (Fields.ofWord m).rsv, (Fields.ofWord w).v && (Fields.ofWord m).v,
        (Fields.ofWord w).arg &&& (Fields.ofWord m).arg⟩ := by
  simp [Fields.ofWord, BitVec.extractLsb'_and]

theorem ofWord_inj {w w' : Word} : Fields.ofWord w = Fields.ofWord w' ↔ w = w' :=
  ⟨fun h => by rw [← Fields.toWord_ofWord w, h, Fields.toWord_ofWord], fun h => by rw [h]⟩

/-- A word fits a row when it has the row's operation and selector, and 0 in the fields the row fixes. -/
theorem fits_rowOf_iff (w : Word) (i : Instr) :
    w &&& (rowOf i).mask = (rowOf i).code ↔
      (Fields.ofWord w).op = i.fields.op ∧ (Fields.ofWord w).sel = i.fields.sel
        ∧ (Fields.ofWord w).rsv = false
        ∧ (takesBit i.fields.op = true ∨ (Fields.ofWord w).v = false)
        ∧ (takesNumber i.fields.op = true ∨ (Fields.ofWord w).arg = 0) := by
  have allOp (c : BitVec 4) : c &&& 15#4 = c := BitVec.and_allOnes
  have allSel (c : BitVec 2) : c &&& 3#2 = c := BitVec.and_allOnes
  have allArg (c : BitVec 24) : c &&& 16777215#24 = c := BitVec.and_allOnes
  rw [← ofWord_inj, ofWord_and, rowOf, Fields.ofWord_toWord, Fields.ofWord_toWord, fixedFields]
  cases takesBit i.fields.op <;> cases takesNumber i.fields.op <;> simp [allOp, allSel, allArg]

theorem takesBit_iff (op : BitVec 4) : takesBit op = true ↔ op.toNat = 3 ∨ op.toNat = 5 := by
  revert op; decide

theorem takesNumber_iff (op : BitVec 4) :
    takesNumber op = true ↔ op.toNat = 1 ∨ op.toNat = 2 ∨ op.toNat = 3 ∨ op.toNat = 9 := by
  revert op; decide

/-- R54 lists no operation and selector of a command. -/
theorem fields_legal (i : Instr) :
    ¬ illegalFields true i.fields.op.toNat i.fields.sel.toNat 0 0 0 := by
  cases i <;> simp [illegalFields, Instr.fields, Op.code, Reg.sel]

/-- With the operation and selector of a command, what else a legal word needs is 0 in the fields that
the command does not take. -/
theorem decodeFields_ne_none_iff {f : Fields} {i : Instr} (hop : f.op = i.fields.op)
    (hsel : f.sel = i.fields.sel) :
    decodeFields true f ≠ none ↔ f.rsv = false ∧ (takesBit i.fields.op = true ∨ f.v = false)
      ∧ (takesNumber i.fields.op = true ∨ f.arg = 0) := by
  have legal := fields_legal i
  have harg : f.arg.toNat = 0 ↔ f.arg = 0 := by bv_omega
  rw [ne_eq, decodeFields_eq_none_iff, hop, hsel, takesBit_iff, takesNumber_iff]
  simp only [illegalFields] at legal ⊢
  grind

/-- A word that decodes fits the row of its command. -/
theorem fits_rowOf_of_decode {w : Word} {i : Instr} (h : decode true w = some i) :
    w &&& (rowOf i).mask = (rowOf i).code := by
  have hf : Fields.ofWord w = i.fields := (fields_of_decodeFields h).symm
  have decodes : decodeFields true (Fields.ofWord w) ≠ none := Option.ne_none_iff_exists'.mpr ⟨i, h⟩
  rw [fits_rowOf_iff]
  exact ⟨by rw [hf], by rw [hf], (decodeFields_ne_none_iff (by rw [hf]) (by rw [hf])).mp decodes⟩

theorem exists_decode_of_fits_rowOf {w : Word} {i : Instr} (h : w &&& (rowOf i).mask = (rowOf i).code) :
    ∃ j, decode true w = some j := by
  obtain ⟨hop, hsel, hzero⟩ := (fits_rowOf_iff w i).mp h
  exact Option.ne_none_iff_exists'.mp ((decodeFields_ne_none_iff hop hsel).mpr hzero)

/-- No word fits two rows: their matches would agree on the bits both rows fix. -/
theorem row_unique {w : Word} {a b : Row} (ha : a ∈ opcodeTable) (hb : b ∈ opcodeTable)
    (hwa : w &&& a.mask = a.code) (hwb : w &&& b.mask = b.code) : a = b := by
  apply rows_eq_of_codes_agree a ha b hb
  rw [← hwa, ← hwb, BitVec.and_assoc, BitVec.and_comm a.mask, ← BitVec.and_assoc]

/-- A word that fits a row decodes to a command of the row. -/
theorem exists_decode_of_fits {w : Word} {row : Row} (hrow : row ∈ opcodeTable)
    (hw : w &&& row.mask = row.code) : ∃ j, decode true w = some j ∧ rowOf j = row := by
  obtain ⟨i, rfl⟩ := exists_rowOf_eq hrow
  obtain ⟨j, hj⟩ := exists_decode_of_fits_rowOf hw
  exact ⟨j, hj, row_unique (rowOf_mem_opcodeTable j) hrow (fits_rowOf_of_decode hj) hw⟩

/-- A row is known by its mnemonic. -/
theorem rowOf_eq_of_mnemonic {i : Instr} {row : Row} (hrow : row ∈ opcodeTable)
    (h : i.mnemonic = row.mnemonic) : rowOf i = row :=
  List.inj_on_of_nodup_map opcodeTable_mnemonics_nodup (rowOf_mem_opcodeTable i) hrow h

/-- Settles O51: a word fits the row of the command it decodes to, and, the rows being disjoint, no other;
a word that fits a row decodes, since a row fixes to 0 the fields that its command does not take. -/
theorem opcodeTableDecides : Obligations.OpcodeTableDecides := by
  unfold Obligations.OpcodeTableDecides
  refine ⟨fun w row hrow => ⟨fun hw => ?_, fun ⟨i, hi, hname⟩ => ?_⟩,
    fun w row row' hrow hrow' => row_unique hrow hrow',
    fun w => ⟨fun ⟨i, hi⟩ => ?_, fun ⟨row, hrow, hw⟩ => ?_⟩⟩
  · obtain ⟨i, hi, rfl⟩ := exists_decode_of_fits hrow hw
    exact ⟨i, hi, rfl⟩
  · rw [← rowOf_eq_of_mnemonic hrow hname]
    exact fits_rowOf_of_decode hi
  · exact ⟨rowOf i, rowOf_mem_opcodeTable i, fits_rowOf_of_decode hi⟩
  · obtain ⟨i, hi, -⟩ := exists_decode_of_fits hrow hw
    exact ⟨i, hi⟩

end Sys2Proof.Machine
end

section
/-! The proofs for 30_encoding.md: what a command answers and puts on the channel (R55, R56), and the
pseudo-commands (R58). -/

namespace Sys2Proof.Machine

open Sys2Proof.Safety

/-! Responses. -/

/-- At least two control bits are equal to their majority (42_keystream_generator.md R85). -/
theorem two_le_enabled (b : Block) :
    2 ≤ (enabled b .x).toNat + (enabled b .y).toNat + (enabled b .z).toNat := by
  unfold enabled vote majority
  cases controlBit b .x <;> cases controlBit b .y <;> cases controlBit b .z <;> decide

theorem legalResponse_ack : LegalResponse (responseWord .ack) := .inl responseWord_ack

theorem legalResponse_bit (b : Bool) : LegalResponse (responseWord (.bit b)) :=
  .inr (.inl ⟨b, responseWord_bit b⟩)

theorem legalResponse_stepOut {key enX enY enZ : Bool}
    (h : 2 ≤ enX.toNat + enY.toNat + enZ.toNat) :
    LegalResponse (responseWord (.stepOut key enX enY enZ)) :=
  .inr (.inr (.inl ⟨key, enX, enY, enZ, responseWord_stepOut key enX enY enZ, h⟩))

theorem legalResponse_regVal {r : Reg} {v : BitVec 23} (h : v.toNat < 2 ^ r.width) :
    LegalResponse (responseWord (.regVal r v)) :=
  .inr (.inr (.inr (.inl ⟨r, v.toNat, responseWord_regVal r v, h⟩)))

theorem legalResponse_genDone (n : Arg) : LegalResponse (responseWord (.genDone n)) :=
  .inr (.inr (.inr (.inr (.inl ⟨n.toNat, n.isLt, responseWord_genDone n⟩))))

theorem legalResponse_faulted (c : Cause) (info : Arg) :
    LegalResponse (responseWord (.faulted c info)) :=
  .inr (.inr (.inr (.inr (.inr ⟨(causeCode c).toNat, info.toNat, by cases c <;> decide, info.isLt,
    responseWord_faulted c info⟩))))

/-- Widening a register to the field of a REGVAL keeps its value (40_bitregister.md R65). -/
theorem toNat_setWidth_lt (r : Reg) (v : BitVec r.width) : (v.setWidth 23).toNat < 2 ^ r.width :=
  lt_of_le_of_lt (by rw [BitVec.toNat_setWidth]; exact Nat.mod_le _ _) v.isLt

@[simp] theorem answerKinds_loadOf (r : Reg) (v : Nat) :
    answerKinds (some (.loadOf r v)) = [0x0] := by cases r <;> rfl
@[simp] theorem answerKinds_atOf (r : Reg) (p : Nat) :
    answerKinds (some (.atOf r p)) = [0x1, 0xF] := by cases r <;> rfl
@[simp] theorem answerKinds_setOf (r : Reg) (p : Nat) (b : Bool) :
    answerKinds (some (.setOf r p b)) = [0x0, 0xF] := by cases r <;> rfl
@[simp] theorem answerKinds_peekOf (r : Reg) :
    answerKinds (some (.peekOf r)) = [0x1] := by cases r <;> rfl
@[simp] theorem answerKinds_shiftOf (r : Reg) (b : Bool) :
    answerKinds (some (.shiftOf r b)) = [0x0] := by cases r <;> rfl
@[simp] theorem answerKinds_updateOf (r : Reg) :
    answerKinds (some (.updateOf r)) = [0x0] := by cases r <;> rfl
@[simp] theorem answerKinds_showOf (r : Reg) :
    answerKinds (some (.showOf r)) = [0x3] := by cases r <;> rfl
@[simp] theorem answerKinds_step : answerKinds (some .step) = [0x2] := rfl
@[simp] theorem answerKinds_gen (n : Nat) : answerKinds (some (.gen n)) = [0x4] := rfl
@[simp] theorem answerKinds_none : answerKinds none = [0xF] := rfl

/-- The response to a command: one word, of a legal layout and of a kind of the command. -/
theorem exec_answers_legal (i : Instr) (s : State) :
    ∃ t rsp, exec i s = .next t ∧ answered s t rsp ∧ LegalResponse rsp
      ∧ kindOf rsp ∈ answerKinds (some i) := by
  rcases instr_family i with ⟨r, v, rfl⟩ | ⟨r, p, rfl⟩ | ⟨r, p, b, rfl⟩ | ⟨r, rfl⟩ | ⟨r, b, rfl⟩ |
    ⟨r, rfl⟩ | ⟨r, rfl⟩ | rfl | ⟨n, rfl⟩
  · exact ⟨_, _, exec_loadOf r v s, rfl, legalResponse_ack, by simp [kindOf_responseWord]⟩
  · rcases Nat.lt_or_ge p r.width with hp | hp
    · exact ⟨_, _, exec_atOf_of_lt r s hp, rfl, legalResponse_bit _, by simp [kindOf_responseWord]⟩
    · exact ⟨_, _, exec_atOf_of_le r s hp, rfl, legalResponse_faulted _ _,
        by simp [kindOf_responseWord]⟩
  · rcases Nat.lt_or_ge p r.width with hp | hp
    · exact ⟨_, _, exec_setOf_of_lt r b s hp, rfl, legalResponse_ack, by simp [kindOf_responseWord]⟩
    · exact ⟨_, _, exec_setOf_of_le r b s hp, rfl, legalResponse_faulted _ _,
        by simp [kindOf_responseWord]⟩
  · exact ⟨_, _, exec_peekOf r s, rfl, legalResponse_bit _, by simp [kindOf_responseWord]⟩
  · exact ⟨_, _, exec_shiftOf r b s, rfl, legalResponse_ack, by simp [kindOf_responseWord]⟩
  · exact ⟨_, _, exec_updateOf r s, rfl, legalResponse_ack, by simp [kindOf_responseWord]⟩
  · exact ⟨_, _, exec_showOf r s, rfl, legalResponse_regVal (toNat_setWidth_lt r _),
      by simp [kindOf_responseWord]⟩
  · exact ⟨_, _, exec_step s, rfl, legalResponse_stepOut (two_le_enabled s.block),
      by simp [kindOf_responseWord]⟩
  · exact ⟨_, _, exec_gen n s, rfl, legalResponse_genDone _, by simp [kindOf_responseWord]⟩

/-- Settles O33: a legal word answers as its command does, an illegal one answers FAULT. -/
theorem everyCommandAnswersOnce : Obligations.EveryCommandAnswersOnce := by
  unfold Obligations.EveryCommandAnswersOnce
  intro hasShow w s
  cases hd : decode hasShow w with
  | none =>
    exact ⟨_, _, issue_of_illegal s hd, rfl, legalResponse_faulted _ _, by simp [kindOf_responseWord]⟩
  | some i =>
    rw [issue_of_decode s hd]
    exact exec_answers_legal i s

theorem responsesLegal_of_answered {s t : State} {rsp : Word} (hs : ResponsesLegal s)
    (ht : answered s t rsp) (hrsp : LegalResponse rsp) : ResponsesLegal t := by
  unfold ResponsesLegal
  rw [ht]
  exact List.forall_mem_append.mpr ⟨hs, List.forall_mem_singleton.mpr hrsp⟩

theorem responsesLegal_of_takeInput {hasShow : Bool} {inp : Input} {s t : State}
    (hs : ResponsesLegal s) (h : takeInput hasShow inp s = .next t) : ResponsesLegal t := by
  cases inp with
  | cmd w =>
    obtain ⟨u, rsp, hu, hanswer, hrsp, -⟩ := everyCommandAnswersOnce hasShow w s
    obtain rfl : u = t := Host.Outcome.next.inj (hu.symm.trans h)
    exact responsesLegal_of_answered hs hanswer hrsp
  | rst => cases h; exact hs
  | cmdThenRst w =>
    obtain ⟨k, hk⟩ := abandon_eq hasShow w s
    simp only [takeInput, hk] at h
    cases h
    exact hs

/-- Settles O44: by what stands at the pins; a command answers one legal word, a reset or an idle step
none. -/
theorem stepKeepsResponsesLegal : Obligations.StepKeepsResponsesLegal := by
  unfold Obligations.StepKeepsResponsesLegal
  intro s t hs h
  rw [step] at h
  cases hp : s.port with
  | none => rw [stepOf_none _ hp] at h; cases h; exact hs
  | some inp =>
    rw [stepOf_some _ hp] at h
    exact responsesLegal_of_takeInput (s := s.idle) hs h

/-! The channel. -/

theorem channelBits_length (i : Instr) (b : Block) : (channelBits i b).length = bitCount (some i) := by
  cases i <;> simp [channelBits, bitCount]

/-- Settles O32: a legal word puts out the bits of its command, an illegal one none. -/
theorem onlyStepAndGenEmit : Obligations.OnlyStepAndGenEmit := by
  unfold Obligations.OnlyStepAndGenEmit
  intro hasShow w s t h
  cases hd : decode hasShow w with
  | none =>
    rw [issue_of_illegal s hd] at h
    cases h
    exact ⟨[], (List.append_nil _).symm, rfl, rfl⟩
  | some i =>
    obtain ⟨u, -, hu, -, hks, hbefore, -⟩ := exec_answers i s
    rw [issue_of_decode s hd, hu] at h
    cases h
    exact ⟨_, hks, channelBits_length i s.block, hbefore⟩

/-! The pseudo-commands. -/

/-- The value that NEWGEN gives each register. -/
def newgenValue (vx vy vz : Nat) : Reg → Nat
  | .x => vx
  | .y => vy
  | .z => vz

theorem mem_newgen_iff {vx vy vz : Nat} {i : Instr} :
    i ∈ newgen vx vy vz ↔ ∃ r, i = .loadOf r (newgenValue vx vy vz r) := by
  constructor
  · intro h
    simp only [newgen, List.mem_cons, List.not_mem_nil, or_false] at h
    rcases h with rfl | rfl | rfl
    · exact ⟨.x, rfl⟩
    · exact ⟨.y, rfl⟩
    · exact ⟨.z, rfl⟩
  · rintro ⟨r, rfl⟩
    cases r <;> simp [newgen, newgenValue, Instr.loadOf]

theorem execAll_cons_of_next {i : Instr} {is : List Instr} {s t : State} (h : exec i s = .next t) :
    execAll (i :: is) s = execAll is t := by simp [execAll, h]

theorem loadOf_reg_inj {r q : Reg} {a b : Nat} : Instr.loadOf r a = .loadOf q b → r = q := by
  cases r <;> cases q <;> simp [Instr.loadOf]

/-- LOADs in any order, the value depending on the register only: each register named holds its value,
every other what it held, and nothing but registers and responses changes. -/
theorem execAll_loads (v : Reg → Nat) {loads : List Instr}
    (h : ∀ i ∈ loads, ∃ r, i = .loadOf r (v r)) (s : State) :
    ∃ t, execAll loads s = .next t ∧ restKept s t
      ∧ ∀ r, t.block.get r = if .loadOf r (v r) ∈ loads then truncTo r (v r) else s.block.get r := by
  induction loads generalizing s with
  | nil => exact ⟨s, rfl, ⟨rfl, rfl, rfl, rfl⟩, fun r => by simp⟩
  | cons i is ih =>
    obtain ⟨q, rfl⟩ := h i List.mem_cons_self
    obtain ⟨t, ht, hrest, hget⟩ := ih (fun i hi => h i (List.mem_cons_of_mem _ hi))
      ((s.putReg q (truncTo q (v q))).respond .ack)
    refine ⟨t, (execAll_cons_of_next (exec_loadOf q (v q) s)).trans ht, hrest, fun r => ?_⟩
    rw [hget, State.respond_block, State.putReg_block]
    by_cases hlater : .loadOf r (v r) ∈ is
    · rw [if_pos hlater, if_pos (List.mem_cons_of_mem _ hlater)]
    · by_cases hr : r = q
      · subst hr
        rw [if_neg hlater, if_pos List.mem_cons_self, Block.get_put_same]
      · have hother : .loadOf r (v r) ∉ Instr.loadOf q (v q) :: is := fun hmem =>
          (List.mem_cons.mp hmem).elim (fun heq => hr (loadOf_reg_inj heq)) hlater
        rw [if_neg hlater, if_neg hother, Block.get_put_other _ _ _ _ hr]

/-- n STEPs leave the block and the keystream of n steps (42_keystream_generator.md R87). -/
theorem execAll_replicate_step (n : Nat) (s : State) :
    ∃ t, execAll (List.replicate n .step) s = .next t ∧ t.block = blockAfter n s.block
      ∧ t.ks = s.ks ++ keysOf n s.block := by
  induction n generalizing s with
  | zero => exact ⟨s, rfl, rfl, (List.append_nil _).symm⟩
  | succ n ih =>
    obtain ⟨u, hu, hublock, huks⟩ : ∃ u, exec .step s = .next u ∧ u.block = stepBlock s.block
        ∧ u.ks = s.ks ++ [keyBit s.block] := ⟨_, exec_step s, rfl, rfl⟩
    obtain ⟨t, ht, hblock, hks⟩ := ih u
    rw [hublock] at hblock hks
    exact ⟨t, (execAll_cons_of_next hu).trans ht, hblock, by rw [hks, huks, List.append_assoc]; rfl⟩

/-- Settles O53: NEWGEN by induction on its LOADs, GEN by induction on its steps, PEEK and UPDATE by what
AT and SHIFT answer. -/
theorem pseudoCommandsAreIdentities : Obligations.PseudoCommandsAreIdentities := by
  unfold Obligations.PseudoCommandsAreIdentities
  intro s
  refine ⟨fun vx vy vz loads hperm => ?_, fun r => ?_, fun n => ?_, fun r => ?_⟩
  · have isLoad (i : Instr) : i ∈ loads ↔ ∃ r, i = .loadOf r (newgenValue vx vy vz r) :=
      hperm.mem_iff.trans mem_newgen_iff
    obtain ⟨t, ht, hrest, hget⟩ := execAll_loads (newgenValue vx vy vz) (fun i hi => (isLoad i).mp hi) s
    have loaded (r : Reg) : (t.block.get r).toNat = newgenValue vx vy vz r % 2 ^ r.width := by
      rw [hget, if_pos ((isLoad _).mpr ⟨r, rfl⟩), truncTo, BitVec.toNat_ofNat]
    exact ⟨t, ht, loaded .x, loaded .y, loaded .z, hrest⟩
  · exact (exec_peekOf r s).trans (exec_atOf_of_lt r s (outTap_lt r)).symm
  · obtain ⟨t, ht, hblock, hks⟩ := execAll_replicate_step n s
    refine ⟨t, _, ht, exec_gen n s, hblock, hks, ?_⟩
    rintro rfl
    exact ⟨rfl, List.append_nil _⟩
  · rw [exec_updateOf, exec_shiftOf, clocked]

end Sys2Proof.Machine
end

section
/-! The proofs for 40_bitregister.md: LOAD, AT, SET, PEEK, SHIFT and SHOW (R60 to R65) and the laws of the
family (R66). Each command leaves a block with one register replaced, or the block as it was. -/

namespace Sys2Proof.Machine

open Sys2Proof.Safety

/-! Command words. -/

/-- A command's numbers, put into a word by the formula of 30_encoding.md R59, decode to the command. -/
theorem decode_commandWord_of_commandFields {hasShow : Bool} {i : Instr} {op sel : Nat} {v : Bool}
    {arg : Arg} (h : commandFields i = (op, sel, v, arg.toNat)) (hshow : op ≠ 0x7 ∨ hasShow = true) :
    decode hasShow (commandWord op sel v arg) = some i := by
  have hsel : sel < 4 := by simpa [h] using commandFields_sel_lt i
  have hfields : i.fields = ⟨BitVec.ofNat 4 op, BitVec.ofNat 2 sel, false, v, arg⟩ := by
    simp [fields_eq_commandFields, h]
  rw [decode_commandWord _ _ _ hsel, ← hfields]
  exact decodeFields_fields ((wellFormed_iff hasShow i).mpr (by
    rw [h]
    exact ⟨arg.isLt, fun h7 => hshow.resolve_left (not_not_intro h7)⟩))

/-- A block without SHOW has no command at the code 0x7 (R54). -/
theorem decode_show_eq_none (r : Reg) (v : Bool) (arg : Arg) :
    decode false (commandWord 0x7 (selNumber r) v arg) = none := by
  rw [decode_commandWord _ _ _ (selNumber_lt r)]
  refine Option.eq_none_iff_forall_ne_some.mpr fun i hi => ?_
  obtain ⟨-, -, hshow⟩ := commandFields_of_decodeFields hi
  exact absurd (hshow rfl) (by decide)

/-! Contents of a register. -/

@[simp] theorem Block.bit_put_same (b : Block) (r : Reg) (v : BitVec r.width) (p : Nat) :
    (b.put r v).bit r p = bitAt v p := by rw [Block.bit, Block.get_put_same]

theorem Block.put_eq_self_iff (b : Block) (r : Reg) (v : BitVec r.width) :
    b.put r v = b ↔ v = b.get r := by
  constructor
  · intro h
    rw [← Block.get_put_same b r v, h]
  · rintro rfl
    cases r <;> rfl

theorem Block.bit_eq_testBit (b : Block) {r : Reg} {p : Nat} (h : p < r.width) :
    b.bit r p = (b.get r).toNat.testBit (r.width - 1 - p) := bitAt_eq_testBit (b.get r) h

/-- A single-bit write in the value view (R62). -/
theorem toNat_setBitAt {n : Nat} (v : BitVec n) {p : Nat} (b : Bool) (h : p < n) :
    (setBitAt v p b).toNat
      = (v.toNat &&& (2 ^ n - 1 - 2 ^ (n - 1 - p))) ||| b.toNat * 2 ^ (n - 1 - p) := by
  have weight : (BitVec.twoPow n (n - 1 - p)).toNat = 2 ^ (n - 1 - p) := by
    rw [BitVec.toNat_twoPow, Nat.mod_eq_of_lt (Nat.pow_lt_pow_right (by decide) (by omega))]
  cases b <;> simp [setBitAt, h, weight]

/-- Doubling modulo M with `b` added gives the number back only for 0 with 0 and M - 1 with 1. -/
theorem mul_two_mod_add_eq_self_iff {M a : Nat} (b : Bool) (hM : 2 ≤ M) (ha : a < M) :
    a * 2 % M + b.toNat = a ↔ a = if b then M - 1 else 0 := by
  rcases Nat.lt_or_ge (a * 2) M with hsmall | hlarge
  · rw [Nat.mod_eq_of_lt hsmall]
    cases b <;> simp <;> omega
  · rw [Nat.mod_eq_sub_mod hlarge, Nat.mod_eq_of_lt (by omega)]
    cases b <;> simp <;> omega

/-- A shift gives the contents back only for all-zero with a 0 and all-ones with a 1 (R64). -/
theorem shiftIn_eq_self_iff {n : Nat} (v : BitVec n) (b : Bool) (h : 0 < n) :
    shiftIn v b = v ↔ v.toNat = if b then 2 ^ n - 1 else 0 := by
  rw [← BitVec.toNat_inj, toNat_shiftIn v b h]
  exact mul_two_mod_add_eq_self_iff b (Nat.le_self_pow (by omega) 2) v.isLt

/-- The bits shifted in last stand at the end of the register, in order: bit j of the list is at the
position that has |bits| - j - 1 positions after it. -/
theorem getElem?_eq_bitAt_foldl_shiftIn {n : Nat} (v : BitVec n) (bits : List Bool) {j p : Nat}
    (hp : p < n) (hj : p + bits.length = n + j) :
    bits[j]? = some (bitAt (bits.foldl shiftIn v) p) := by
  induction bits using List.reverseRecOn generalizing p with
  | nil => simp at hj; omega
  | append_singleton bits b ih =>
    rw [List.length_append, List.length_singleton] at hj
    rw [List.foldl_append, List.foldl_cons, List.foldl_nil]
    rcases Nat.lt_or_ge (p + 1) n with hnext | hlast
    · rw [bitAt_shiftIn _ _ hnext, List.getElem?_append_left (by omega)]
      exact ih hnext (by omega)
    · obtain rfl : p = n - 1 := by omega
      obtain rfl : j = bits.length := by omega
      rw [bitAt_shiftIn_last _ _ (by omega), List.getElem?_concat_length]

/-! What a command answers and leaves. -/

theorem answered_of_rsps {s t : State} {rsp : Response} {w : Word}
    (ht : t.rsps = s.rsps ++ [responseWord rsp]) (hw : responseWord rsp = w) : answered s t w := by
  rw [answered, ht, hw]

theorem answered_unique {s t : State} {w w' : Word} (h : answered s t w) (h' : answered s t w') :
    w = w' := by simpa using h.symm.trans h'

/-- The response to a position outside the register: cause 1, and the position's low 24 bits
(60_exceptions.md R101). -/
theorem responseWord_outOfRange (p : Nat) :
    responseWord (.faulted .outOfRange (argField p)) = faultWord 1 p := by
  rw [responseWord_faulted, argField, BitVec.toNat_ofNat, faultWord_mod]
  rfl

theorem othersKept_of_block_eq {r : Reg} {s t : State} (h : t.block = s.block) : othersKept r s t :=
  fun _ _ => by rw [h]

theorem othersKept_of_block_eq_put {r : Reg} {s t : State} {v : BitVec r.width}
    (h : t.block = s.block.put r v) : othersKept r s t :=
  fun q hq => by rw [h, Block.get_put_other _ r q v hq]

/-! LOAD, SET and SHIFT in the position view, and what AT reads. -/

theorem bit_of_exec_loadOf {r : Reg} {V p : Nat} {s t : State} (h : exec (.loadOf r V) s = .next t)
    (hp : p < r.width) : t.block.bit r p = V.testBit (r.width - 1 - p) := by
  rw [exec_loadOf] at h
  cases h
  simp [truncTo, bitAt_ofNat V hp]

theorem bit_of_exec_setOf {r : Reg} {p q : Nat} {b : Bool} {s t : State}
    (h : exec (.setOf r p b) s = .next t) (hp : p < r.width) (hq : q < r.width) :
    t.block.bit r q = if q = p then b else s.block.bit r q := by
  rw [exec_setOf_of_lt r b s hp] at h
  cases h
  simp [bitAt_setBitAt _ b hp hq, Block.bit]

theorem bit_of_exec_shiftOf {r : Reg} {i : Nat} {b : Bool} {s t : State}
    (h : exec (.shiftOf r b) s = .next t) (hi : i + 1 < r.width) :
    t.block.bit r i = s.block.bit r (i + 1) := by
  rw [exec_shiftOf] at h
  cases h
  simp [bitAt_shiftIn _ b hi, Block.bit]

theorem bit_of_exec_shiftOf_last {r : Reg} {b : Bool} {s t : State}
    (h : exec (.shiftOf r b) s = .next t) : t.block.bit r (r.width - 1) = b := by
  rw [exec_shiftOf] at h
  cases h
  simp [bitAt_shiftIn_last _ b (reg_width_pos r)]

theorem answered_of_exec_atOf {r : Reg} {p : Nat} {s t : State} (h : exec (.atOf r p) s = .next t)
    (hp : p < r.width) : answered s t (bitWord (s.block.bit r p)) := by
  rw [exec_atOf_of_lt r s hp] at h
  cases h
  exact answered_of_rsps rfl (responseWord_bit _)

/-- PEEK is AT at the output tap (R63). -/
theorem exec_peekOf_eq_atOf (r : Reg) (s : State) :
    exec (.peekOf r) s = exec (.atOf r (r.width - 1)) s :=
  (exec_peekOf r s).trans (exec_atOf_of_lt r s (outTap_lt r)).symm

/-! Frames of the family, and faults. -/

/-- The commands that read register r and write nothing: AT.r, PEEK.r and SHOW.r. -/
def ReadsReg (r : Reg) (i : Instr) : Prop := (∃ p, i = .atOf r p) ∨ i = .peekOf r ∨ i = .showOf r

/-- All that a read does is answer. -/
theorem eq_respond_of_readsReg {r : Reg} {i : Instr} {s t : State} (hi : ReadsReg r i)
    (h : exec i s = .next t) : ∃ rsp, t = s.respond rsp := by
  rcases hi with ⟨p, rfl⟩ | rfl | rfl
  · rcases Nat.lt_or_ge p r.width with hp | hp
    · rw [exec_atOf_of_lt r s hp] at h; cases h; exact ⟨_, rfl⟩
    · rw [exec_atOf_of_le r s hp] at h; cases h; exact ⟨_, rfl⟩
  · rw [exec_peekOf] at h; cases h; exact ⟨_, rfl⟩
  · rw [exec_showOf] at h; cases h; exact ⟨_, rfl⟩

theorem othersKept_of_readsReg {r : Reg} {i : Instr} {s t : State} (hi : ReadsReg r i)
    (h : exec i s = .next t) : othersKept r s t := by
  obtain ⟨rsp, rfl⟩ := eq_respond_of_readsReg hi h
  exact othersKept_of_block_eq rfl

theorem othersKept_of_writesReg {r : Reg} {i : Instr} {s t : State} (hi : WritesReg r i)
    (h : exec i s = .next t) : othersKept r s t := by
  rcases hi with ⟨V, rfl⟩ | ⟨p, b, rfl⟩ | ⟨b, rfl⟩ | rfl
  · rw [exec_loadOf] at h; cases h; exact othersKept_of_block_eq_put rfl
  · rcases Nat.lt_or_ge p r.width with hp | hp
    · rw [exec_setOf_of_lt r b s hp] at h; cases h; exact othersKept_of_block_eq_put rfl
    · rw [exec_setOf_of_le r b s hp] at h; cases h; exact othersKept_of_block_eq rfl
  · rw [exec_shiftOf] at h; cases h; exact othersKept_of_block_eq_put rfl
  · rw [exec_updateOf] at h; cases h; exact othersKept_of_block_eq_put rfl

/-- An answer that is a FAULT was given as one. -/
theorem eq_faulted_of_isFault {s t : State} {rsp : Response} {w : Word}
    (ht : t.rsps = s.rsps ++ [responseWord rsp]) (hw : answered s t w) (hf : isFault w = true) :
    ∃ c info, rsp = .faulted c info := by
  rw [answered_unique hw ht] at hf
  exact (isFault_responseWord rsp).mp hf

/-- The commands that fault: AT and SET at a position outside the register, and all they do then is
answer OutOfRange (60_exceptions.md R100, R105). -/
theorem outOfRange_of_isFault {i : Instr} {s t : State} {w : Word} (h : exec i s = .next t)
    (hw : answered s t w) (hf : isFault w = true) :
    ∃ r p, r.width ≤ p ∧ (i = .atOf r p ∨ ∃ b, i = .setOf r p b)
      ∧ t = takeFault .outOfRange (argField p) s := by
  rcases instr_family i with ⟨r, v, rfl⟩ | ⟨r, p, rfl⟩ | ⟨r, p, b, rfl⟩ | ⟨r, rfl⟩ | ⟨r, b, rfl⟩ |
    ⟨r, rfl⟩ | ⟨r, rfl⟩ | rfl | ⟨n, rfl⟩
  · rw [exec_loadOf] at h; cases h; obtain ⟨_, _, ⟨⟩⟩ := eq_faulted_of_isFault rfl hw hf
  · rcases Nat.lt_or_ge p r.width with hp | hp
    · rw [exec_atOf_of_lt r s hp] at h; cases h
      obtain ⟨_, _, ⟨⟩⟩ := eq_faulted_of_isFault rfl hw hf
    · rw [exec_atOf_of_le r s hp] at h; cases h; exact ⟨r, p, hp, .inl rfl, rfl⟩
  · rcases Nat.lt_or_ge p r.width with hp | hp
    · rw [exec_setOf_of_lt r b s hp] at h; cases h
      obtain ⟨_, _, ⟨⟩⟩ := eq_faulted_of_isFault rfl hw hf
    · rw [exec_setOf_of_le r b s hp] at h; cases h; exact ⟨r, p, hp, .inr ⟨b, rfl⟩, rfl⟩
  · rw [exec_peekOf] at h; cases h; obtain ⟨_, _, ⟨⟩⟩ := eq_faulted_of_isFault rfl hw hf
  · rw [exec_shiftOf] at h; cases h; obtain ⟨_, _, ⟨⟩⟩ := eq_faulted_of_isFault rfl hw hf
  · rw [exec_updateOf] at h; cases h; obtain ⟨_, _, ⟨⟩⟩ := eq_faulted_of_isFault rfl hw hf
  · rw [exec_showOf] at h; cases h; obtain ⟨_, _, ⟨⟩⟩ := eq_faulted_of_isFault rfl hw hf
  · rw [exec_step] at h; cases h; obtain ⟨_, _, ⟨⟩⟩ := eq_faulted_of_isFault rfl hw hf
  · rw [exec_gen] at h; cases h; obtain ⟨_, _, ⟨⟩⟩ := eq_faulted_of_isFault rfl hw hf

/-- A word that is answered FAULT, a command or not, only takes that fault (60_exceptions.md R105). -/
theorem eq_takeFault_of_isFault {hasShow : Bool} {w rsp : Word} {s t : State}
    (h : issue hasShow w s = .next t) (hrsp : answered s t rsp) (hf : isFault rsp = true) :
    ∃ c info, t = takeFault c info s := by
  cases hd : decode hasShow w with
  | none =>
    rw [issue_of_illegal s hd] at h
    cases h
    exact ⟨_, _, rfl⟩
  | some i =>
    rw [issue_of_decode s hd] at h
    obtain ⟨r, p, -, -, ht⟩ := outOfRange_of_isFault h hrsp hf
    exact ⟨_, _, ht⟩

/-! The commands. -/

/-- Settles O2: the truncation in both views. -/
theorem loadKeepsLowBits : Obligations.LoadKeepsLowBits := by
  unfold Obligations.LoadKeepsLowBits
  refine fun r => ⟨fun hasShow a => decode_commandWord_of_commandFields
    (commandFields_loadOf r a.toNat) (.inl (by decide)), fun V s => ⟨_, exec_loadOf r V s, ?_,
    fun p hp => bit_of_exec_loadOf (exec_loadOf r V s) hp, othersKept_of_block_eq_put rfl,
    ⟨rfl, rfl, rfl, rfl⟩, answered_of_rsps rfl responseWord_ack⟩⟩
  simp [truncTo]

/-- Settles O3: by whether the position is in the register. -/
theorem atReadsOneBitOrFaults : Obligations.AtReadsOneBitOrFaults := by
  unfold Obligations.AtReadsOneBitOrFaults
  refine fun r => ⟨fun hasShow a => decode_commandWord_of_commandFields
    (commandFields_atOf r a.toNat) (.inl (by decide)), fun pos s => ?_⟩
  rcases Nat.lt_or_ge pos r.width with hp | hp
  · refine ⟨_, exec_atOf_of_lt r s hp, rfl, ⟨rfl, rfl, rfl, rfl⟩, fun _ => ?_, fun hle => by omega⟩
    rw [← Block.bit_eq_testBit s.block hp]
    exact answered_of_rsps rfl (responseWord_bit _)
  · exact ⟨_, exec_atOf_of_le r s hp, rfl, ⟨rfl, rfl, rfl, rfl⟩, fun hlt => by omega,
      fun _ _ => answered_of_rsps rfl (responseWord_outOfRange pos)⟩

/-- Settles O4: by whether the position is in the register. -/
theorem setWritesOneBitOrFaults : Obligations.SetWritesOneBitOrFaults := by
  unfold Obligations.SetWritesOneBitOrFaults
  refine fun r => ⟨fun hasShow a v => decode_commandWord_of_commandFields
    (commandFields_setOf r a.toNat v) (.inl (by decide)), fun pos value s => ?_⟩
  rcases Nat.lt_or_ge pos r.width with hp | hp
  · have h := exec_setOf_of_lt r value s hp
    refine ⟨_, h, othersKept_of_block_eq_put rfl, ⟨rfl, rfl, rfl, rfl⟩, fun _ =>
      ⟨fun q hq => bit_of_exec_setOf h hp hq, ?_, answered_of_rsps rfl responseWord_ack⟩,
      fun hle => by omega⟩
    simpa using toNat_setBitAt (s.block.get r) value hp
  · exact ⟨_, exec_setOf_of_le r value s hp, othersKept_of_block_eq rfl, ⟨rfl, rfl, rfl, rfl⟩,
      fun hlt => by omega, fun _ => ⟨rfl, fun _ => answered_of_rsps rfl (responseWord_outOfRange pos)⟩⟩

/-- Settles O5: the output tap is the position of weight 1. -/
theorem peekReadsOutputTap : Obligations.PeekReadsOutputTap := by
  unfold Obligations.PeekReadsOutputTap
  refine fun r => ⟨fun hasShow => decode_commandWord_of_commandFields (commandFields_peekOf r)
    (.inl (by decide)), fun s => ⟨_, exec_peekOf r s, rfl, ⟨rfl, rfl, rfl, rfl⟩,
    answered_of_rsps rfl (responseWord_bit _), ?_, ?_⟩⟩
  · simpa [outTap] using Block.bit_eq_testBit s.block (outTap_lt r)
  · rw [← exec_peekOf_eq_atOf, exec_peekOf]

/-- Settles O6: the shift in both views. -/
theorem shiftMovesEveryBit : Obligations.ShiftMovesEveryBit := by
  unfold Obligations.ShiftMovesEveryBit
  refine fun r => ⟨fun hasShow v => decode_commandWord_of_commandFields (commandFields_shiftOf r v)
    (.inl (by decide)), fun newBit s => ?_⟩
  have h := exec_shiftOf r newBit s
  refine ⟨_, h, fun i hi => bit_of_exec_shiftOf h hi, bit_of_exec_shiftOf_last h, ?_,
    othersKept_of_block_eq_put rfl, ⟨rfl, rfl, rfl, rfl⟩, answered_of_rsps rfl responseWord_ack⟩
  simpa using toNat_shiftIn (s.block.get r) newBit (reg_width_pos r)

/-- Settles O7: no register is wider than the field of a REGVAL. -/
theorem showReturnsWholeRegister : Obligations.ShowReturnsWholeRegister := by
  unfold Obligations.ShowReturnsWholeRegister
  refine fun r => ⟨decode_commandWord_of_commandFields (commandFields_showOf r) (.inr rfl),
    decode_show_eq_none r false 0, fun s => ⟨_, exec_showOf r s, rfl, ⟨rfl, rfl, rfl, rfl⟩,
    answered_of_rsps rfl ?_⟩⟩
  have hwidth : r.width ≤ 23 := by cases r <;> decide
  rw [responseWord_regVal, BitVec.toNat_setWidth_of_le hwidth]

/-! The laws, and what follows from the shift. -/

/-- Settles O8: AT reads what LOAD, SET or SHIFT left, PEEK is an AT, and the frames of the family and of
a fault. -/
theorem bitRegisterLaws : Obligations.BitRegisterLaws := by
  unfold Obligations.BitRegisterLaws
  intro r s t u
  refine ⟨fun V p hp hload hat => ?_, fun p b q hp hq hset hat => ?_, fun b i hi hshift hat => ?_,
    by rw [exec_peekOf_eq_atOf], fun i h hi => ?_, fun hasShow w rsp h hrsp hf => ?_,
    fun i h hi => ?_⟩
  · have hread := answered_of_exec_atOf hat hp
    have hlow : r.width - 1 - p < r.width := by omega
    rw [bit_of_exec_loadOf hload hp] at hread
    simpa [Nat.testBit_mod_two_pow, hlow] using hread
  · rw [← bit_of_exec_setOf hset hp hq]
    exact answered_of_exec_atOf hat hq
  · have hread := answered_of_exec_atOf hat hi
    split
    · subst i
      rwa [bit_of_exec_shiftOf_last hshift] at hread
    · rwa [bit_of_exec_shiftOf hshift (by omega)] at hread
  · obtain ⟨rsp, rfl⟩ := eq_respond_of_readsReg hi h
    exact ⟨rfl, rfl⟩
  · obtain ⟨c, info, rfl⟩ := eq_takeFault_of_isFault h hrsp hf
    exact ⟨rfl, rfl⟩
  · rcases hi with hload | hat | hset | hpeek | hshift | hupdate | hshow
    · exact othersKept_of_writesReg (.inl hload) h
    · exact othersKept_of_readsReg (.inl hat) h
    · exact othersKept_of_writesReg (.inr (.inl hset)) h
    · exact othersKept_of_readsReg (.inr (.inl hpeek)) h
    · exact othersKept_of_writesReg (.inr (.inr (.inl hshift))) h
    · exact othersKept_of_writesReg (.inr (.inr (.inr hupdate))) h
    · exact othersKept_of_readsReg (.inr (.inr hshow)) h

/-- Shifts of register r in a row shift its contents, and nothing but r and the responses changes. -/
theorem execAll_shifts (r : Reg) (bits : List Bool) (s : State) :
    ∃ t, execAll (bits.map (.shiftOf r)) s = .next t
      ∧ t.block.get r = bits.foldl shiftIn (s.block.get r) ∧ othersKept r s t ∧ restKept s t := by
  induction bits generalizing s with
  | nil => exact ⟨s, rfl, rfl, othersKept_of_block_eq rfl, ⟨rfl, rfl, rfl, rfl⟩⟩
  | cons b bits ih =>
    obtain ⟨t, ht, hget, hothers, hrest⟩ :=
      ih ((s.putReg r (shiftIn (s.block.get r) b)).respond .ack)
    refine ⟨t, (execAll_cons_of_next (exec_shiftOf r b s)).trans ht, ?_, fun q hq => ?_, hrest⟩
    · simpa using hget
    · exact (hothers q hq).trans (Block.get_put_other s.block r q _ hq)

/-- Settles O9: N_r bits shifted in one after another fill the register from position 0 on. -/
theorem shiftingNBitsReplacesContents : Obligations.ShiftingNBitsReplacesContents := by
  unfold Obligations.ShiftingNBitsReplacesContents
  intro r bits s hlength
  obtain ⟨t, ht, hget, hothers, hrest⟩ := execAll_shifts r bits s
  refine ⟨t, ht, fun p hp => ?_, hothers, hrest⟩
  rw [Block.bit, hget]
  exact getElem?_eq_bitAt_foldl_shiftIn (s.block.get r) bits hp (by omega)

/-- Settles O10: the block is kept when the one register is, and the value view of the shift decides when
that is. -/
theorem shiftFixedContents : Obligations.ShiftFixedContents := by
  unfold Obligations.ShiftFixedContents
  intro r b s t h
  rw [exec_shiftOf] at h
  cases h
  rw [State.respond_block, State.putReg_block, Block.put_eq_self_iff]
  exact shiftIn_eq_self_iff (s.block.get r) b (reg_width_pos r)

end Sys2Proof.Machine
end

section
/-! SUPPORT. The feedback bit and the clocking of one register, in the position view: the XOR of listed
positions (41_register_variants.md R70, R75), and where repeated UPDATEs move a bit (R78). -/

namespace Sys2Proof.Machine

open Sys2Proof.Safety

/-! The XOR of listed positions. -/

@[simp] theorem xorOfPositions_nil {n : Nat} (v : BitVec n) : xorOfPositions v [] = false := rfl

theorem xorOfPositions_append_singleton {n : Nat} (v : BitVec n) (ps : List Nat) (p : Nat) :
    xorOfPositions v (ps ++ [p]) = (xorOfPositions v ps ^^ bitAt v p) := by simp [xorOfPositions]

/-- The XOR of listed positions is the parity of the ones at them (R75). -/
theorem xorOfPositions_eq_parity {n : Nat} (v : BitVec n) (ps : List Nat) :
    xorOfPositions v ps = decide (ps.countP (bitAt v) % 2 = 1) := by
  induction ps using List.reverseRecOn with
  | nil => rfl
  | append_singleton ps p ih =>
    rw [xorOfPositions_append_singleton, ih, List.countP_append]
    rcases Nat.mod_two_eq_zero_or_one (ps.countP (bitAt v)) with h | h <;>
      cases hp : bitAt v p <;> simp [Nat.add_mod, h, hp]

/-- Only what stands at the listed positions matters, wherever that is. -/
theorem xorOfPositions_map {m n : Nat} {w : BitVec m} {v : BitVec n} {ps : List Nat} {place : Nat → Nat}
    (h : ∀ p ∈ ps, bitAt w (place p) = bitAt v p) :
    xorOfPositions w (ps.map place) = xorOfPositions v ps := by
  rw [xorOfPositions_eq_parity, xorOfPositions_eq_parity, List.countP_map]
  congr 3
  exact List.countP_congr fun p hp => by simp [h p hp]

theorem bitAt_xor {n : Nat} (v w : BitVec n) (p : Nat) :
    bitAt (v ^^^ w) p = (bitAt v p ^^ bitAt w p) := by
  rcases Nat.lt_or_ge p n with h | h
  · simp [bitAt_eq_getLsbD, h]
  · simp [bitAt, Nat.not_lt.mpr h]

@[simp] theorem bitAt_zero {n : Nat} (p : Nat) : bitAt 0#n p = false := by simp [bitAt]

@[simp] theorem xorOfPositions_zero {n : Nat} (ps : List Nat) :
    xorOfPositions (0 : BitVec n) ps = false := by
  rw [xorOfPositions_eq_parity, List.countP_eq_zero.mpr fun p _ => by simp]
  rfl

theorem xorOfPositions_xor {n : Nat} (v w : BitVec n) (ps : List Nat) :
    xorOfPositions (v ^^^ w) ps = (xorOfPositions v ps ^^ xorOfPositions w ps) := by
  induction ps using List.reverseRecOn with
  | nil => rfl
  | append_singleton ps p ih =>
    simp only [xorOfPositions_append_singleton, ih, bitAt_xor, Bool.xor_assoc, Bool.xor_left_comm]

/-- The shift is XOR-linear in the contents and the new bit together. -/
theorem shiftIn_xor {n : Nat} (v w : BitVec n) (a b : Bool) :
    shiftIn (v ^^^ w) (a ^^ b) = shiftIn v a ^^^ shiftIn w b := by
  apply eq_of_bitAt_eq
  intro p hp
  rw [bitAt_xor]
  rcases Nat.lt_or_ge (p + 1) n with hnext | hlast
  · simp only [bitAt_shiftIn _ _ hnext, bitAt_xor]
  · obtain rfl : p = n - 1 := by omega
    simp only [bitAt_shiftIn_last _ _ (show 0 < n by omega)]

/-- A shift of the XOR of an even number of positions gives back all-zero only: all-ones would need a 1 to
be shifted in. -/
theorem shiftIn_xorOfPositions_eq_self_iff {n : Nat} {ps : List Nat} (hn : 0 < n)
    (heven : xorOfPositions (BitVec.allOnes n) ps = false) (v : BitVec n) :
    shiftIn v (xorOfPositions v ps) = v ↔ v = 0 := by
  rw [shiftIn_eq_self_iff v _ hn]
  constructor
  · intro h
    cases hfb : xorOfPositions v ps with
    | false => exact BitVec.eq_of_toNat_eq (by simpa [hfb] using h)
    | true =>
      obtain rfl : v = BitVec.allOnes n := BitVec.eq_of_toNat_eq (by simpa [hfb] using h)
      rw [heven] at hfb
      contradiction
  · rintro rfl
    rw [xorOfPositions_zero]
    rfl

/-! UPDATE of one register. -/

theorem bitAt_clocked (r : Reg) (v : BitVec r.width) {p : Nat} (h : p + 1 < r.width) :
    bitAt (clocked r v) p = bitAt v (p + 1) := bitAt_shiftIn v _ h

theorem bitAt_clocked_last (r : Reg) (v : BitVec r.width) :
    bitAt (clocked r v) (r.width - 1) = feedback r v := bitAt_shiftIn_last v _ (reg_width_pos r)

/-- All-zero is the one fixed point (R76): a shift also fixes all-ones, but only with a 1 shifted in, and
the taps of all-ones, an even number, give a 0. -/
theorem clocked_eq_self_iff (r : Reg) (v : BitVec r.width) : clocked r v = v ↔ v = 0 :=
  shiftIn_xorOfPositions_eq_self_iff (reg_width_pos r) (by cases r <;> decide) v

theorem clockedTimes_eq_iterate (r : Reg) (n : Nat) (v : BitVec r.width) :
    clockedTimes r n v = (clocked r)^[n] v := by
  induction n generalizing v with
  | zero => rfl
  | succ n ih => exact ih (clocked r v)

/-- The bit that the UPDATE after k others shifts in is d places below the output tap after d more. -/
theorem bitAt_clockedTimes (r : Reg) (v : BitVec r.width) (k : Nat) {d p : Nat}
    (h : p + d + 1 = r.width) : bitAt (clockedTimes r (k + d + 1) v) p = feedbackAfter r v k := by
  rw [clockedTimes_eq_iterate, Function.iterate_succ_apply']
  induction d generalizing p with
  | zero =>
    obtain rfl : p = r.width - 1 := by omega
    rw [bitAt_clocked_last, ← clockedTimes_eq_iterate]
    rfl
  | succ d ih =>
    rw [bitAt_clocked r _ (by omega), ← Nat.add_assoc, Function.iterate_succ_apply']
    exact ih (by omega)

/-- UPDATE.r in both views: every bit moves one place toward position 0, the feedback of the old contents
comes in at the output tap, and nothing else changes (R71 to R74). -/
theorem exec_updateOf_effect (r : Reg) (s : State) :
    ∃ t, exec (.updateOf r) s = .next t
      ∧ (∀ i, i + 1 < r.width → t.block.bit r i = s.block.bit r (i + 1))
      ∧ t.block.bit r (r.width - 1) = feedback r (s.block.get r)
      ∧ (t.block.get r).toNat
          = (s.block.get r).toNat * 2 % 2 ^ r.width + (feedback r (s.block.get r)).toNat
      ∧ othersKept r s t ∧ restKept s t ∧ answered s t ackWord := by
  refine ⟨_, exec_updateOf r s, fun i hi => ?_, ?_, ?_, othersKept_of_block_eq_put rfl,
    ⟨rfl, rfl, rfl, rfl⟩, answered_of_rsps rfl responseWord_ack⟩
  · exact (Block.bit_put_same _ _ _ _).trans (bitAt_clocked r _ hi)
  · exact (Block.bit_put_same _ _ _ _).trans (bitAt_clocked_last r _)
  · rw [State.respond_block, State.putReg_block, Block.get_put_same]
    exact toNat_shiftIn _ _ (reg_width_pos r)

theorem get_of_exec_updateOf {r : Reg} {s t : State} (h : exec (.updateOf r) s = .next t) :
    t.block.get r = clocked r (s.block.get r) := by
  rw [exec_updateOf] at h
  cases h
  simp

theorem decode_updateOf (r : Reg) (hasShow : Bool) :
    decode hasShow (commandWord 0x6 (selNumber r) false 0) = some (.updateOf r) :=
  decode_commandWord_of_commandFields (commandFields_updateOf r) (.inl (by decide))

end Sys2Proof.Machine
end

section
/-! The proofs for 41_register_variants.md R70 to R77 and R78 (a): the feedback bit, UPDATE.X, UPDATE.Y and
UPDATE.Z, and the recurrences of the bits they shift in. -/

namespace Sys2Proof.Machine

open Sys2Proof.Safety

/-- Settles O11: the list of taps written out, in the position and the value view, and the parity of any
list of positions. -/
theorem feedbackIsXorOfTaps : Obligations.FeedbackIsXorOfTaps := by
  unfold Obligations.FeedbackIsXorOfTaps
  intro b
  have hx := feedback_x b.x
  have hy := feedback_y b.y
  have hz := feedback_z b.z
  refine ⟨⟨hx, hy, hz⟩, ⟨?_, ?_, ?_⟩, fun r => ?_⟩
  · rw [hx]; simp [bitAt_eq_testBit]
  · rw [hy]; simp [bitAt_eq_testBit]
  · rw [hz]; simp [bitAt_eq_testBit]
  · exact xorOfPositions_eq_parity (b.get r) (taps r)

/-- Settles O12: the parity of the ones does not depend on the order. -/
theorem feedbackOrderDoesNotMatter : Obligations.FeedbackOrderDoesNotMatter := by
  unfold Obligations.FeedbackOrderDoesNotMatter
  intro r v ps qs hperm
  refine ⟨?_, xorOfPositions_eq_parity v ps⟩
  rw [xorOfPositions_eq_parity, xorOfPositions_eq_parity, hperm.countP_eq]

/-- Settles O13: the effect of UPDATE.r, with the taps of X. -/
theorem updateXClocksX : Obligations.UpdateXClocksX := by
  unfold Obligations.UpdateXClocksX
  refine ⟨decode_updateOf .x, fun s => ?_⟩
  obtain ⟨t, ht, hbits, hlast, hval, hframe⟩ := exec_updateOf_effect .x s
  exact ⟨t, _, ht, feedback_x s.block.x, fun i hi => hbits i (Nat.succ_lt_succ (Nat.lt_succ_of_le hi)),
    hlast, hval, hframe⟩

/-- Settles O14: the effect of UPDATE.r, with the taps of Y. -/
theorem updateYClocksY : Obligations.UpdateYClocksY := by
  unfold Obligations.UpdateYClocksY
  refine ⟨decode_updateOf .y, fun s => ?_⟩
  obtain ⟨t, ht, hbits, hlast, hval, hframe⟩ := exec_updateOf_effect .y s
  exact ⟨t, _, ht, feedback_y s.block.y, fun i hi => hbits i (Nat.succ_lt_succ (Nat.lt_succ_of_le hi)),
    hlast, hval, hframe⟩

/-- Settles O15: the effect of UPDATE.r, with the taps of Z. -/
theorem updateZClocksZ : Obligations.UpdateZClocksZ := by
  unfold Obligations.UpdateZClocksZ
  refine ⟨decode_updateOf .z, fun s => ?_⟩
  obtain ⟨t, ht, hbits, hlast, hval, hframe⟩ := exec_updateOf_effect .z s
  exact ⟨t, _, ht, feedback_z s.block.z, fun i hi => hbits i (Nat.succ_lt_succ (Nat.lt_succ_of_le hi)),
    hlast, hval, hframe⟩

/-- Settles O16: UPDATE.r clocks the contents, and clocking fixes all-zero only. -/
theorem updateFixesOnlyAllZero : Obligations.UpdateFixesOnlyAllZero := by
  unfold Obligations.UpdateFixesOnlyAllZero
  intro r s t h
  rw [get_of_exec_updateOf h]
  exact clocked_eq_self_iff r (s.block.get r)

/-- Settles O17: the contents after UPDATE.r are a function of those before it. -/
theorem updateDependsOnItsRegisterOnly : Obligations.UpdateDependsOnItsRegisterOnly := by
  unfold Obligations.UpdateDependsOnItsRegisterOnly
  intro r s s' t t' hget h h'
  rw [get_of_exec_updateOf h, get_of_exec_updateOf h', hget]

/-- Settles O18: d + 1 UPDATEs later a bit stands at the tap d places below the output tap. -/
theorem shiftedInBitsObeyRecurrence : Obligations.ShiftedInBitsObeyRecurrence := by
  unfold Obligations.ShiftedInBitsObeyRecurrence
  refine ⟨fun v k => ?_, fun v k => ?_, fun v k => ?_⟩
  · refine (feedback_x _).trans ?_
    rw [← bitAt_clockedTimes .x v (k + 5) (d := 0) (p := 18) rfl,
      ← bitAt_clockedTimes .x v (k + 4) (d := 1) (p := 17) rfl,
      ← bitAt_clockedTimes .x v (k + 3) (d := 2) (p := 16) rfl,
      ← bitAt_clockedTimes .x v k (d := 5) (p := 13) rfl]
    rfl
  · refine (feedback_y _).trans ?_
    rw [← bitAt_clockedTimes .y v (k + 1) (d := 0) (p := 21) rfl,
      ← bitAt_clockedTimes .y v k (d := 1) (p := 20) rfl]
    rfl
  · refine (feedback_z _).trans ?_
    rw [← bitAt_clockedTimes .z v (k + 15) (d := 0) (p := 22) rfl,
      ← bitAt_clockedTimes .z v (k + 14) (d := 1) (p := 21) rfl,
      ← bitAt_clockedTimes .z v (k + 13) (d := 2) (p := 20) rfl,
      ← bitAt_clockedTimes .z v k (d := 15) (p := 7) rfl]
    rfl

end Sys2Proof.Machine
end

section
/-! SUPPORT. XOR-linear maps of bit vectors by their columns, and how a few squarings of the columns find
the order of a map. -/

namespace Sys2Proof.Machine

def XorLinear {n : Nat} (f : BitVec n → BitVec n) : Prop := ∀ v w, f (v ^^^ w) = f v ^^^ f w

/-- The low k bits of v, at their places. -/
def lowBits {n : Nat} (k : Nat) (v : BitVec n) : BitVec n := (v.setWidth k).setWidth n

/-- The values of f at the single bits, lowest weight first: a linear map as the columns of its matrix. -/
def columns {n : Nat} (f : BitVec n → BitVec n) : List (BitVec n) :=
  (List.range n).map fun i => f (BitVec.twoPow n i)

/-- The XOR of the columns that v selects among the first k. -/
def xorColumns {n : Nat} (cols : List (BitVec n)) (v : BitVec n) (k : Nat) : BitVec n :=
  (List.range k).foldl (fun acc i => if v.getLsbD i then acc ^^^ cols.getD i 0 else acc) 0

/-- A map, given by its columns, after itself. -/
def squareColumns {n : Nat} (cols : List (BitVec n)) : List (BitVec n) :=
  cols.map fun c => xorColumns cols c n

theorem XorLinear.map_zero {n : Nat} {f : BitVec n → BitVec n} (hf : XorLinear f) : f 0 = 0 := by
  simpa using hf 0 0

theorem XorLinear.iterate {n : Nat} {f : BitVec n → BitVec n} (hf : XorLinear f) (k : Nat) :
    XorLinear f^[k] := by
  induction k with
  | zero => exact fun _ _ => rfl
  | succ k ih => exact fun v w => by simp only [Function.iterate_succ_apply', ih v w, hf _ _]

@[simp] theorem lowBits_width {n : Nat} (v : BitVec n) : lowBits n v = v := by simp [lowBits]

@[simp] theorem lowBits_zero {n : Nat} (v : BitVec n) : lowBits 0 v = 0 := by
  rw [lowBits, (BitVec.of_length_zero : v.setWidth 0 = 0#0)]
  simp

theorem getLsbD_lowBits {n : Nat} (k : Nat) (v : BitVec n) (i : Nat) :
    (lowBits k v).getLsbD i = (decide (i < k) && v.getLsbD i) := by
  rcases Nat.lt_or_ge i n with h | h
  · rw [lowBits, BitVec.getLsbD_setWidth, BitVec.getLsbD_setWidth, decide_eq_true h, Bool.true_and]
  · simp [h]

theorem lowBits_succ {n : Nat} (k : Nat) (v : BitVec n) :
    lowBits (k + 1) v = if v.getLsbD k then lowBits k v ^^^ BitVec.twoPow n k else lowBits k v := by
  apply BitVec.eq_of_getLsbD_eq
  intro i hi
  rcases eq_or_ne i k with rfl | hne
  · have hbit : (BitVec.twoPow n i).getLsbD i = true := by simp [hi]
    cases hv : v.getLsbD i <;> simp [-BitVec.getLsbD_eq_getElem, getLsbD_lowBits, hv, hbit]
  · have hlt : i < k + 1 ↔ i < k := by omega
    cases hv : v.getLsbD k <;> simp [getLsbD_lowBits, hlt, BitVec.getLsbD_twoPow, hne.symm]

theorem columns_getD {n : Nat} (f : BitVec n → BitVec n) {i : Nat} (h : i < n) :
    (columns f).getD i 0 = f (BitVec.twoPow n i) := by simp [columns, h]

/-- A linear map is determined by its columns: by induction on the number of low bits. -/
theorem xorColumns_columns {n : Nat} {f : BitVec n → BitVec n} (hf : XorLinear f) (v : BitVec n) :
    xorColumns (columns f) v n = f v := by
  have low (k : Nat) (hk : k ≤ n) : xorColumns (columns f) v k = f (lowBits k v) := by
    induction k with
    | zero => rw [lowBits_zero, hf.map_zero]; rfl
    | succ k ih =>
      have step : xorColumns (columns f) v (k + 1) = if v.getLsbD k
          then xorColumns (columns f) v k ^^^ (columns f).getD k 0
          else xorColumns (columns f) v k := by simp [xorColumns, List.range_succ]
      rw [step, ih (by omega), columns_getD f hk, lowBits_succ, ← hf, apply_ite f]
  simpa using low n (Nat.le_refl n)

theorem XorLinear.eq_of_columns_eq {n : Nat} {f g : BitVec n → BitVec n} (hf : XorLinear f)
    (hg : XorLinear g) (h : columns f = columns g) : f = g := by
  funext v
  rw [← xorColumns_columns hf, h, xorColumns_columns hg]

/-- k squarings of the columns of f are the columns of f iterated 2^k times. -/
theorem XorLinear.columns_iterate_two_pow {n : Nat} {f : BitVec n → BitVec n} (hf : XorLinear f)
    (k : Nat) : columns f^[2 ^ k] = squareColumns^[k] (columns f) := by
  induction k with
  | zero => rfl
  | succ k ih =>
    rw [Function.iterate_succ_apply', ← ih, pow_succ, Nat.mul_two, Function.iterate_add]
    simp only [squareColumns, xorColumns_columns (hf.iterate _)]
    simp [columns]

/-- If k squarings give f^a back, then (f^a)^(2^k) = f^a, and an injective f has an order that divides
a * (2^k - 1). -/
theorem XorLinear.iterate_eq_id_of_squareColumns {n : Nat} {f : BitVec n → BitVec n} (hf : XorLinear f)
    (hinj : Function.Injective f) {a k : Nat}
    (h : squareColumns^[k] (columns f^[a]) = columns f^[a]) : f^[a * (2 ^ k - 1)] = id := by
  have hpow : (f^[a])^[2 ^ k] = f^[a] :=
    ((hf.iterate a).iterate _).eq_of_columns_eq (hf.iterate a)
      (((hf.iterate a).columns_iterate_two_pow k).trans h)
  funext v
  apply hinj.iterate a
  have hexp : a + a * (2 ^ k - 1) = a * 2 ^ k := by
    rw [Nat.mul_sub_one, Nat.add_sub_cancel' (Nat.le_mul_of_pos_right a (Nat.two_pow_pos k))]
  rw [← Function.iterate_add_apply, hexp, Function.iterate_mul, hpow, id]

end Sys2Proof.Machine
end

section
/-! SUPPORT. The feedback window of a register as a register of its own (41_register_variants.md R78 (b),
(c)): the tap at its lowest position feeds back, and UPDATE of the register is a step of the window. -/

namespace Sys2Proof.Machine

open Sys2Proof.Safety

/-- How many positions there are from the lowest tap to the output tap. -/
abbrev windowWidth (r : Reg) : Nat := r.width - lowestTap r

/-- The window of contents v (R78 (b)), its positions counted from the lowest tap. -/
def windowBits (r : Reg) (v : BitVec r.width) : BitVec (windowWidth r) := v.setWidth (windowWidth r)

/-- The taps as positions of the window. -/
def windowTaps (r : Reg) : List Nat := (taps r).map (· - lowestTap r)

/-- UPDATE.r on the window alone. -/
def windowStep (r : Reg) (w : BitVec (windowWidth r)) : BitVec (windowWidth r) :=
  shiftIn w (xorOfPositions w (windowTaps r))

theorem windowWidth_add_lowestTap (r : Reg) : windowWidth r + lowestTap r = r.width := by
  cases r <;> rfl

theorem windowWidth_pos (r : Reg) : 0 < windowWidth r := by cases r <;> decide

theorem lowestTap_le (r : Reg) : ∀ p ∈ taps r, lowestTap r ≤ p := by cases r <;> decide

/-- The lowest tap is at position 0 of the window, and the other taps are above it. -/
theorem windowTaps_eq (r : Reg) : ∃ ps, windowTaps r = ps ++ [0] ∧ ∀ p ∈ ps, 0 < p := by
  cases r
  · exact ⟨[5, 4, 3], rfl, by decide⟩
  · exact ⟨[1], rfl, by decide⟩
  · exact ⟨[15, 14, 13], rfl, by decide⟩

theorem window_eq_toNat (r : Reg) (v : BitVec r.width) : window r v = (windowBits r v).toNat := by
  simp [window, windowBits]

theorem window_eq_iff (r : Reg) (v w : BitVec r.width) :
    window r v = window r w ↔ windowBits r v = windowBits r w := by
  rw [window_eq_toNat, window_eq_toNat, BitVec.toNat_inj]

theorem window_eq_zero_iff (r : Reg) (v : BitVec r.width) : window r v = 0 ↔ windowBits r v = 0 := by
  rw [window_eq_toNat, ← BitVec.toNat_inj]
  rfl

theorem bitAt_windowBits (r : Reg) (v : BitVec r.width) (p : Nat) :
    bitAt (windowBits r v) p = bitAt v (p + lowestTap r) := by
  have hwidth := windowWidth_add_lowestTap r
  rcases Nat.lt_or_ge p (windowWidth r) with hp | hp
  · have hplace : r.width - 1 - (p + lowestTap r) = windowWidth r - 1 - p := by omega
    rw [bitAt_eq_testBit _ hp, bitAt_eq_testBit _ (show p + lowestTap r < r.width by omega), hplace,
      windowBits, BitVec.toNat_setWidth, Nat.testBit_mod_two_pow,
      decide_eq_true (show windowWidth r - 1 - p < windowWidth r by omega), Bool.true_and]
  · rw [bitAt, bitAt, decide_eq_false (Nat.not_lt.mpr hp),
      decide_eq_false (show ¬ p + lowestTap r < r.width by omega), Bool.false_and, Bool.false_and]

theorem feedback_eq_of_windowBits (r : Reg) (v : BitVec r.width) :
    feedback r v = xorOfPositions (windowBits r v) (windowTaps r) :=
  (xorOfPositions_map fun p hp => by
    rw [bitAt_windowBits, Nat.sub_add_cancel (lowestTap_le r p hp)]).symm

theorem windowBits_eq_of_bitAt_eq {r : Reg} {v w : BitVec r.width}
    (h : ∀ p, lowestTap r ≤ p → p < r.width → bitAt v p = bitAt w p) :
    windowBits r v = windowBits r w := by
  have hwidth := windowWidth_add_lowestTap r
  apply eq_of_bitAt_eq
  intro p hp
  rw [bitAt_windowBits, bitAt_windowBits]
  exact h _ (by omega) (by omega)

theorem windowBits_clocked (r : Reg) (v : BitVec r.width) :
    windowBits r (clocked r v) = windowStep r (windowBits r v) := by
  have hwidth := windowWidth_add_lowestTap r
  rw [windowStep, ← feedback_eq_of_windowBits]
  apply eq_of_bitAt_eq
  intro p hp
  rw [bitAt_windowBits]
  rcases Nat.lt_or_ge (p + 1) (windowWidth r) with hnext | hlast
  · rw [bitAt_clocked r v (by omega), bitAt_shiftIn _ _ hnext, bitAt_windowBits, Nat.add_right_comm]
  · obtain rfl : p = windowWidth r - 1 := by omega
    have houtput : windowWidth r - 1 + lowestTap r = r.width - 1 := by omega
    rw [houtput, bitAt_clocked_last, bitAt_shiftIn_last _ _ (windowWidth_pos r)]

theorem windowBits_clockedTimes (r : Reg) (n : Nat) (v : BitVec r.width) :
    windowBits r (clockedTimes r n v) = (windowStep r)^[n] (windowBits r v) := by
  rw [clockedTimes_eq_iterate]
  exact (Function.Semiconj.iterate_right (windowBits_clocked r) n).eq v

theorem windowStep_xorLinear (r : Reg) : XorLinear (windowStep r) := fun v w => by
  rw [windowStep, xorOfPositions_xor, shiftIn_xor]
  rfl

/-- What the shift drops from the window is the lowest tap, and the feedback determines it. -/
theorem windowStep_injective (r : Reg) : Function.Injective (windowStep r) := by
  intro v w h
  have hpos := windowWidth_pos r
  have above (p : Nat) (hp : 0 < p) : bitAt v p = bitAt w p := by
    rcases Nat.lt_or_ge p (windowWidth r) with hlt | hge
    · have hbit := congrArg (bitAt · (p - 1)) h
      simpa only [windowStep, bitAt_shiftIn _ _ (show p - 1 + 1 < windowWidth r by omega),
        Nat.sub_add_cancel hp] using hbit
    · simp [bitAt, Nat.not_lt.mpr hge]
  have hfeedback := congrArg (bitAt · (windowWidth r - 1)) h
  obtain ⟨ps, htaps, hps⟩ := windowTaps_eq r
  have hsame : xorOfPositions v ps = xorOfPositions w ps := by
    simpa using xorOfPositions_map (place := id) fun p hp => above p (hps p hp)
  simp only [windowStep, bitAt_shiftIn_last _ _ hpos, htaps, xorOfPositions_append_singleton, hsame,
    Bool.xor_right_inj] at hfeedback
  apply eq_of_bitAt_eq
  rintro (_ | p) -
  · exact hfeedback
  · exact above (p + 1) p.succ_pos

/-- An exponent that brings every window back: 15, 3 and 57337 = 7 * 8191, each as a * (2^k - 1), where k
squarings of the a-th power of the window map give that power back. -/
def windowOrder : Reg → Nat
  | .x => 1 * (2 ^ 4 - 1)
  | .y => 1 * (2 ^ 2 - 1)
  | .z => 7 * (2 ^ 13 - 1)

theorem windowStep_iterate_windowOrder (r : Reg) : (windowStep r)^[windowOrder r] = id := by
  cases r with
  | x =>
    exact (windowStep_xorLinear .x).iterate_eq_id_of_squareColumns (windowStep_injective .x)
      (a := 1) (k := 4) (by decide +kernel)
  | y =>
    exact (windowStep_xorLinear .y).iterate_eq_id_of_squareColumns (windowStep_injective .y)
      (a := 1) (k := 2) (by decide +kernel)
  | z =>
    exact (windowStep_xorLinear .z).iterate_eq_id_of_squareColumns (windowStep_injective .z)
      (a := 7) (k := 13) (by decide +kernel)

end Sys2Proof.Machine
end

section
/-! The proofs for 41_register_variants.md R78 (b) and (c): only the window feeds back, and the cycles of
its map. -/

namespace Sys2Proof.Machine

open Sys2Proof.Safety

/-- Settles O19: the window after k UPDATEs, and so the feedback, is a function of the window before. -/
theorem onlyTheWindowFeedsBack : Obligations.OnlyTheWindowFeedsBack := by
  unfold Obligations.OnlyTheWindowFeedsBack
  intro r v w h k
  rw [feedbackAfter, feedbackAfter, feedback_eq_of_windowBits, feedback_eq_of_windowBits,
    windowBits_clockedTimes, windowBits_clockedTimes, windowBits_eq_of_bitAt_eq h]

/-- Settles O20: the step of the window is injective and linear. -/
theorem windowMapIsBijective : Obligations.WindowMapIsBijective := by
  unfold Obligations.WindowMapIsBijective
  refine fun r => ⟨fun v w => ?_, fun v h => ?_⟩
  · rw [window_eq_iff, window_eq_iff, windowBits_clocked, windowBits_clocked,
      (windowStep_injective r).eq_iff]
  · rw [window_eq_zero_iff] at h ⊢
    rw [windowBits_clocked, h, (windowStep_xorLinear r).map_zero]

/-! Cycles. -/

/-- The length of the cycle of the window map on which the window of v lies. -/
noncomputable def cycleLength (r : Reg) (v : BitVec r.width) : Nat :=
  Function.minimalPeriod (windowStep r) (windowBits r v)

theorem window_clockedTimes_eq_iff (r : Reg) (n : Nat) (v : BitVec r.width) :
    window r (clockedTimes r n v) = window r v
      ↔ Function.IsPeriodicPt (windowStep r) n (windowBits r v) := by
  rw [window_eq_iff, windowBits_clockedTimes]
  rfl

/-- The window of v first returns after the length of its cycle. -/
theorem window_first_returns (r : Reg) (v : BitVec r.width) :
    window r (clockedTimes r (cycleLength r v) v) = window r v
      ∧ ∀ m, 0 < m → m < cycleLength r v → window r (clockedTimes r m v) ≠ window r v :=
  ⟨(window_clockedTimes_eq_iff r _ v).mpr (Function.isPeriodicPt_minimalPeriod _ _),
    fun _ hpos hlt => (window_clockedTimes_eq_iff r _ v).not.mpr
      (Function.not_isPeriodicPt_of_pos_of_lt_minimalPeriod hpos.ne' hlt)⟩

theorem cycleLength_dvd_iff (r : Reg) (v : BitVec r.width) (n : Nat) :
    cycleLength r v ∣ n ↔ (windowStep r)^[n] (windowBits r v) = windowBits r v :=
  Function.isPeriodicPt_iff_minimalPeriod_dvd.symm

theorem cycleLength_dvd_windowOrder (r : Reg) (v : BitVec r.width) :
    cycleLength r v ∣ windowOrder r := by
  rw [cycleLength_dvd_iff, windowStep_iterate_windowOrder, id]

theorem windowStep_eq_self_iff (r : Reg) (w : BitVec (windowWidth r)) : windowStep r w = w ↔ w = 0 :=
  shiftIn_xorOfPositions_eq_self_iff (windowWidth_pos r) (by cases r <;> decide) w

/-- The window map of X has no cycle of length 5. -/
theorem eq_zero_of_windowStep_x_five : ∀ w : BitVec (windowWidth .x),
    (windowStep .x)^[5] w = w → w = 0 := by decide +kernel

theorem dvd_prime_mul_prime {p q n : Nat} (hp : p.Prime) (hq : q.Prime) (h : n ∣ p * q) :
    n = 1 ∨ n = p ∨ n = q ∨ n = p * q := by
  obtain ⟨a, b, ha, hb, rfl⟩ := (Nat.dvd_mul).mp h
  rcases (Nat.dvd_prime hp).mp ha with rfl | rfl
  · rcases (Nat.dvd_prime hq).mp hb with rfl | rfl <;> simp
  · rcases (Nat.dvd_prime hq).mp hb with rfl | rfl <;> simp

/-- The length of a cycle divides the order of the window map, 3 * 5, 3 or 7 * 8191, and of its divisors 1
is left to the all-zero window, and so is 5 of X. -/
theorem cycleLength_mem_cycleLengths {r : Reg} {v : BitVec r.width} (h : window r v ≠ 0) :
    cycleLength r v ∈ cycleLengths r := by
  have hne : windowBits r v ≠ 0 := (window_eq_zero_iff r v).not.mp h
  have hone : cycleLength r v ≠ 1 := fun he =>
    hne ((windowStep_eq_self_iff r _).mp ((cycleLength_dvd_iff r v 1).mp he.dvd))
  have horder := cycleLength_dvd_windowOrder r v
  cases r with
  | x =>
    have hfive : cycleLength .x v ≠ 5 := fun he =>
      hne (eq_zero_of_windowStep_x_five _ ((cycleLength_dvd_iff .x v 5).mp he.dvd))
    have hcases := dvd_prime_mul_prime (p := 3) (q := 5) (by decide) (by decide) horder
    simp only [cycleLengths, List.mem_cons, List.not_mem_nil]
    omega
  | y =>
    have hcases := (Nat.dvd_prime (p := 3) (by decide)).mp horder
    exact List.mem_singleton.mpr (hcases.resolve_left hone)
  | z =>
    have hcases := dvd_prime_mul_prime (p := 7) (q := 8191) (by decide) (by norm_num) horder
    simp only [cycleLengths, List.mem_cons, List.not_mem_nil]
    omega

/-- Each length of X and Y occurs: 15 at a single one in X, 3 at 011011 in X and at a single one in Y. -/
theorem exists_cycleLength_eq {r : Reg} (hr : r ≠ .z) {n : Nat} (hn : n ∈ cycleLengths r) :
    ∃ v : BitVec r.width, window r v ≠ 0 ∧ cycleLength r v = n := by
  cases r with
  | x =>
    have hone := cycleLength_mem_cycleLengths (r := .x) (v := 1) (by decide)
    have hthree : cycleLength .x 0b011011 ∣ 3 := (cycleLength_dvd_iff .x _ 3).mpr (by decide)
    have hnot : ¬ cycleLength .x 1 ∣ 3 := (cycleLength_dvd_iff .x _ 3).not.mpr (by decide)
    have hmem := cycleLength_mem_cycleLengths (r := .x) (v := 0b011011) (by decide)
    simp only [cycleLengths, List.mem_cons, List.not_mem_nil, or_false] at hn hone hmem
    rcases hn with rfl | rfl
    · exact ⟨1, by decide, hone.resolve_right fun he => hnot he.dvd⟩
    · exact ⟨0b011011, by decide, hmem.resolve_left fun he => absurd hthree (he ▸ by decide)⟩
  | y =>
    have hone := cycleLength_mem_cycleLengths (r := .y) (v := 1) (by decide)
    exact ⟨1, by decide, (List.mem_singleton.mp hone).trans (List.mem_singleton.mp hn).symm⟩
  | z => exact absurd rfl hr

/-- Settles O21: a window first returns after the length of its cycle, one of those listed, and each of
these is the length of one. -/
theorem windowCyclesOfXAndY : Obligations.WindowCyclesOfXAndY := by
  unfold Obligations.WindowCyclesOfXAndY
  intro r hr
  refine ⟨fun v hv => ⟨_, cycleLength_mem_cycleLengths hv, window_first_returns r v⟩, fun n hn => ?_⟩
  obtain ⟨v, hv, rfl⟩ := exists_cycleLength_eq hr hn
  exact ⟨v, hv, window_first_returns r v⟩

/-- Settles O22: a window first returns after the length of its cycle, one of those listed. -/
theorem windowCyclesOfZ : Obligations.WindowCyclesOfZ := by
  unfold Obligations.WindowCyclesOfZ
  exact fun v hv => ⟨_, cycleLength_mem_cycleLengths (r := .z) hv, window_first_returns .z v⟩

end Sys2Proof.Machine
end

section
/-! The proof for the vectors KG1 and KG3 of 95_test_vectors.md as laws: blocks that a step leaves as they
are. -/

namespace Sys2Proof.Machine

open Sys2Proof.Safety

/-- A step leaves a block in which every register is all-zero or held (R76, R84). -/
theorem stepBlock_eq_self {b : Block} (h : ∀ r, b.get r = 0 ∨ enabled b r = false) :
    stepBlock b = b := by
  apply Block.ext_get
  intro r
  rw [stepBlock_get]
  cases hen : enabled b r with
  | true =>
    rw [stepReg_of_enabled hen, clocked_eq_self_iff]
    exact (h r).resolve_right (by simp [hen])
  | false => exact stepReg_of_not_enabled hen

theorem blockAfter_of_stepBlock_eq {b : Block} (h : stepBlock b = b) (n : Nat) :
    blockAfter n b = b := by
  induction n with
  | zero => rfl
  | succ n ih => rw [blockAfter, h, ih]

theorem keysOf_of_stepBlock_eq {b : Block} (h : stepBlock b = b) (n : Nat) :
    keysOf n b = List.replicate n (keyBit b) := by
  induction n with
  | zero => rfl
  | succ n ih => rw [keysOf, h, ih, List.replicate_succ]

theorem Block.bit_of_get_eq_zero {b : Block} {r : Reg} (h : b.get r = 0) (p : Nat) :
    b.bit r p = false := by rw [Block.bit, h]; exact bitAt_zero p

/-- With the control bits of X and Y 0 the vote is 0, and Z is held when its control bit is 1 (R82, R83). -/
theorem enabled_z_of_lone_vote {b : Block} (hx : b.x = 0) (hy : b.y = 0) (hz : b.bit .z 10 = true) :
    enabled b .z = false := by
  have hcx : controlBit b .x = false := Block.bit_of_get_eq_zero (r := .x) hx _
  have hcy : controlBit b .y = false := Block.bit_of_get_eq_zero (r := .y) hy _
  have hcz : controlBit b .z = true := hz
  simp [enabled, vote, majority, hcx, hcy, hcz]

theorem keyBit_of_xy_zero {b : Block} (hx : b.x = 0) (hy : b.y = 0) : keyBit b = b.bit .z 22 := by
  rw [keyBit, Block.bit_of_get_eq_zero (r := .x) hx, Block.bit_of_get_eq_zero (r := .y) hy]
  exact Bool.false_xor _

/-- Settles O30: one step leaves the block as it is and gives a 0, so n steps do. -/
theorem generatorFixedPoints : Obligations.GeneratorFixedPoints := by
  unfold Obligations.GeneratorFixedPoints
  intro s t n hx hy hz h
  have hfixed : stepBlock s.block = s.block := stepBlock_eq_self fun r => by
    cases r with
    | x => exact .inl hx
    | y => exact .inl hy
    | z => exact hz.imp_right fun ⟨hvote, _⟩ => enabled_z_of_lone_vote hx hy hvote
  have hkey : keyBit s.block = false := by
    rw [keyBit_of_xy_zero hx hy]
    rcases hz with hzero | ⟨-, hout⟩
    · exact Block.bit_of_get_eq_zero (r := .z) hzero 22
    · exact hout
  rw [exec_gen] at h
  cases h
  exact ⟨blockAfter_of_stepBlock_eq hfixed n, by simp [keysOf_of_stepBlock_eq hfixed, hkey]⟩

end Sys2Proof.Machine
end

section
/-! The proofs for 42_keystream_generator.md R80 to R85: the key bit, the control bits, their
majority and the registers it enables. -/

namespace Sys2Proof.Machine

/-! The bits of a step. -/

/-- The output tap is the bit of weight 1, 1 exactly when the contents are odd (00_scope.md R4). -/
theorem Block.bit_outTap (b : Block) (r : Reg) :
    b.bit r (outTap r) = decide ((b.get r).toNat % 2 = 1) := by
  rw [Block.bit_eq_testBit b (outTap_lt r), outTap, Nat.sub_self, Nat.testBit_zero]

/-- The parity of a sum is the XOR of the parities. -/
theorem decide_add_mod_two_eq_one (m n : Nat) :
    decide ((m + n) % 2 = 1) = (decide (m % 2 = 1) ^^ decide (n % 2 = 1)) := by
  rcases Nat.mod_two_eq_zero_or_one m with hm | hm <;>
    rcases Nat.mod_two_eq_zero_or_one n with hn | hn <;> simp [Nat.add_mod, hm, hn]

/-- Settles O23: each output tap is its register's parity, and each control position is a bit of the
register's value. -/
theorem keyAndControlPositions : Obligations.KeyAndControlPositions := by
  unfold Obligations.KeyAndControlPositions
  intro b
  have hkey : keyBit b = decide ((b.x.toNat + b.y.toNat + b.z.toNat) % 2 = 1) := by
    rw [decide_add_mod_two_eq_one, decide_add_mod_two_eq_one, keyBit, Block.bit_outTap,
      Block.bit_outTap, Block.bit_outTap]
    rfl
  exact ⟨rfl, hkey, rfl, Block.bit_eq_testBit b (ctrl_lt .x), rfl,
    Block.bit_eq_testBit b (ctrl_lt .y), rfl, Block.bit_eq_testBit b (ctrl_lt .z)⟩

/-! The majority. -/

theorem majority_eq_true_iff (cx cy cz : Bool) :
    majority cx cy cz = true ↔ 2 ≤ cx.toNat + cy.toNat + cz.toNat := by
  revert cx cy cz; decide

/-- A register is enabled when its control bit equals the vote (R83). -/
theorem enabled_iff (b : Block) (r : Reg) : enabled b r = true ↔ controlBit b r = vote b :=
  beq_iff_eq

/-- All three bits equal their majority exactly when they are equal to each other (R85). -/
theorem eq_majority_iff (cx cy cz : Bool) :
    (cx = majority cx cy cz ∧ cy = majority cx cy cz ∧ cz = majority cx cy cz)
      ↔ cx = cy ∧ cy = cz := by
  revert cx cy cz; decide

theorem toNat_add_eq_three_iff (a b c : Bool) :
    a.toNat + b.toNat + c.toNat = 3 ↔ a = true ∧ b = true ∧ c = true := by
  revert a b c; decide

/-- Settles O24: the number enabled is at least 2, at most 3, and 3 when every control bit is the
majority. -/
theorem majorityEnablesTwoOrThree : Obligations.MajorityEnablesTwoOrThree := by
  unfold Obligations.MajorityEnablesTwoOrThree
  intro b
  refine ⟨majority_eq_true_iff _ _ _, enabled_iff b, ?_, ?_⟩
  · have atLeast := two_le_enabled b
    have hx := Bool.toNat_le (enabled b .x)
    have hy := Bool.toNat_le (enabled b .y)
    have hz := Bool.toNat_le (enabled b .z)
    omega
  · rw [toNat_add_eq_three_iff, enabled_iff, enabled_iff, enabled_iff]
    exact eq_majority_iff _ _ _

end Sys2Proof.Machine
end

section
/-! The proofs for 42_keystream_generator.md R84 to R91: STEP, GEN as that many STEPs, and that a
command reads nothing but the three registers. -/

namespace Sys2Proof.Machine

open Sys2Proof.Safety

/-! STEP. -/

/-- Everything a STEP does, with the vote and the enables as the model names them (R86). -/
theorem exec_step_effect (s : State) :
    ∃ t, exec .step s = .next t ∧ (∀ r, t.block.get r = stepReg s.block r)
      ∧ restKeptEmitting [keyBit s.block] s t
      ∧ answered s t (stepOutWord (keyBit s.block) (enabled s.block .x) (enabled s.block .y)
          (enabled s.block .z)) :=
  ⟨_, exec_step s, stepBlock_get s.block, ⟨rfl, rfl, rfl, rfl⟩,
    answered_of_rsps rfl (responseWord_stepOut _ _ _ _)⟩

/-- Conditional clocking in the value view, with the feedback bit in any form (R84,
40_bitregister.md R64). -/
theorem toNat_stepReg {b : Block} {r : Reg} {fb : Bool} (hfb : feedback r (b.get r) = fb) :
    (stepReg b r).toNat
      = if controlBit b r = vote b then (b.get r).toNat * 2 % 2 ^ r.width + fb.toNat
        else (b.get r).toNat := by
  split
  next h =>
    rw [stepReg_of_enabled ((enabled_iff b r).mpr h), clocked, hfb,
      toNat_shiftIn _ _ (reg_width_pos r)]
  next h => rw [stepReg_of_not_enabled (Bool.eq_false_iff.mpr (h ∘ (enabled_iff b r).mp))]

/-- Settles O25: an enabled register is clocked as UPDATE clocks it, another is held. -/
theorem stepClocksExactlyTheEnabled : Obligations.StepClocksExactlyTheEnabled := by
  unfold Obligations.StepClocksExactlyTheEnabled
  intro s t r h
  obtain ⟨u, hu, hget, -⟩ := exec_step_effect s
  obtain rfl : u = t := Host.Outcome.next.inj (hu.symm.trans h)
  rw [hget]
  refine ⟨fun hen => ⟨_, exec_updateOf r s, ?_⟩, stepReg_of_not_enabled⟩
  rw [stepReg_of_enabled hen, get_of_exec_updateOf (exec_updateOf r s)]

/-- Settles O26: the effect of STEP, each register in the value view with its taps written out. -/
theorem stepPerformsOnePass : Obligations.StepPerformsOnePass := by
  unfold Obligations.StepPerformsOnePass
  refine ⟨by decide, fun s => ?_⟩
  obtain ⟨t, ht, hget, hrest, hanswer⟩ := exec_step_effect s
  have val (r : Reg) : (t.block.get r).toNat = (stepReg s.block r).toNat := by rw [hget]
  exact ⟨t, keyBit s.block, vote s.block, ht, rfl, rfl,
    (val .x).trans (toNat_stepReg (feedback_x s.block.x)),
    (val .y).trans (toNat_stepReg (feedback_y s.block.y)),
    (val .z).trans (toNat_stepReg (feedback_z s.block.z)), hrest, hanswer⟩

/-! GEN. -/

/-- Bit i of a GEN is the key of the block that i steps leave (R87, R89). -/
theorem keysOf_getElem? {n i : Nat} (b : Block) (h : i < n) :
    (keysOf n b)[i]? = some (keyBit (blockAfter i b)) := by
  obtain ⟨k, rfl⟩ : ∃ k, n = i + (k + 1) := ⟨n - i - 1, by omega⟩
  rw [keysOf_add, List.getElem?_append_right (by simp), keysOf_length, Nat.sub_self]
  rfl

/-- A GENDONE word takes only the low 24 bits of its length, those of the operand field
(30_encoding.md R55). -/
theorem responseWord_genDone_argField (n : Nat) :
    responseWord (.genDone (argField n)) = genDoneWord n := by
  rw [responseWord_genDone, argField, BitVec.toNat_ofNat]
  exact congrArg (fun m => BitVec.ofNat 32 (0x40000000 + m)) (Nat.mod_mod n _)

/-- Everything a GEN does (R87). -/
theorem exec_gen_effect (n : Nat) (s : State) :
    ∃ t, exec (.gen n) s = .next t ∧ t.block = blockAfter n s.block
      ∧ restKeptEmitting (keysOf n s.block) s t ∧ answered s t (genDoneWord n) :=
  ⟨_, exec_gen n s, rfl, ⟨rfl, rfl, rfl, rfl⟩,
    answered_of_rsps rfl (responseWord_genDone_argField n)⟩

theorem decode_gen (hasShow : Bool) (a : Arg) :
    decode hasShow (commandWord 0x9 0 false a) = some (.gen a.toNat) :=
  decode_commandWord_of_commandFields (commandFields_gen a.toNat) (.inl (by decide))

/-- Settles O27: GEN and a run of STEPs both leave the block and the keystream of n steps. -/
theorem genIsLengthSteps : Obligations.GenIsLengthSteps := by
  unfold Obligations.GenIsLengthSteps
  refine ⟨decode_gen, fun n s => ?_⟩
  obtain ⟨t, ht, hblock, hrest, hanswer⟩ := exec_gen_effect n s
  obtain ⟨u, hu, hublock, huks⟩ := execAll_replicate_step n s
  refine ⟨t, keysOf n s.block, u, ht, keysOf_length n s.block, hrest, fun _ => hanswer, hu,
    hblock.trans hublock.symm, hrest.1.trans huks.symm, fun i hi => ?_⟩
  obtain ⟨v, hv, hvblock, -⟩ := execAll_replicate_step i s
  exact ⟨v, hv, by rw [hvblock, keysOf_getElem? s.block hi]⟩

/-- Settles O28: the steps of two GENs one after another are those of one. -/
theorem genContinuesWhereItLeftOff : Obligations.GenContinuesWhereItLeftOff := by
  unfold Obligations.GenContinuesWhereItLeftOff
  refine fun s => ⟨fun a b => ?_, fun n => ?_⟩
  · obtain ⟨m, hm, hmblock, ⟨hmks, -⟩, -⟩ := exec_gen_effect a s
    obtain ⟨t, ht, htblock, ⟨htks, -⟩, -⟩ := exec_gen_effect b m
    obtain ⟨u, hu, hublock, ⟨huks, -⟩, -⟩ := exec_gen_effect (a + b) s
    refine ⟨t, u, (execAll_cons_of_next hm).trans (execAll_cons_of_next ht), hu, ?_, ?_⟩
    · rw [htblock, hmblock, hublock, blockAfter_add]
    · rw [htks, hmks, hmblock, huks, keysOf_add, List.append_assoc]
  · obtain ⟨t, ht, htblock, htks⟩ := execAll_replicate_step n s
    obtain ⟨u, hu, hublock, ⟨huks, -⟩, -⟩ := exec_gen_effect n s
    exact ⟨t, u, ht, hu, htblock.trans hublock.symm, htks.trans huks.symm⟩

/-! What a command reads. -/

/-- The block a command leaves and the word it answers are functions of the block it starts from
(R91). -/
theorem exec_congr_block {i : Instr} {s s' t t' : State} (hblock : s.block = s'.block)
    (h : exec i s = .next t) (h' : exec i s' = .next t') :
    t.block = t'.block ∧ ∃ w, answered s t w ∧ answered s' t' w := by
  obtain ⟨⟨b, ks, ksBefore, rsps, resets⟩, port⟩ := s
  obtain ⟨⟨b', ks', ksBefore', rsps', resets'⟩, port'⟩ := s'
  obtain rfl : b = b' := hblock
  rcases instr_family i with ⟨r, v, rfl⟩ | ⟨r, p, rfl⟩ | ⟨r, p, c, rfl⟩ | ⟨r, rfl⟩ | ⟨r, c, rfl⟩ |
    ⟨r, rfl⟩ | ⟨r, rfl⟩ | rfl | ⟨n, rfl⟩
  · rw [exec_loadOf] at h h'; cases h; cases h'; exact ⟨rfl, _, rfl, rfl⟩
  · rcases Nat.lt_or_ge p r.width with hp | hp
    · rw [exec_atOf_of_lt r _ hp] at h h'; cases h; cases h'; exact ⟨rfl, _, rfl, rfl⟩
    · rw [exec_atOf_of_le r _ hp] at h h'; cases h; cases h'; exact ⟨rfl, _, rfl, rfl⟩
  · rcases Nat.lt_or_ge p r.width with hp | hp
    · rw [exec_setOf_of_lt r c _ hp] at h h'; cases h; cases h'; exact ⟨rfl, _, rfl, rfl⟩
    · rw [exec_setOf_of_le r c _ hp] at h h'; cases h; cases h'; exact ⟨rfl, _, rfl, rfl⟩
  · rw [exec_peekOf] at h h'; cases h; cases h'; exact ⟨rfl, _, rfl, rfl⟩
  · rw [exec_shiftOf] at h h'; cases h; cases h'; exact ⟨rfl, _, rfl, rfl⟩
  · rw [exec_updateOf] at h h'; cases h; cases h'; exact ⟨rfl, _, rfl, rfl⟩
  · rw [exec_showOf] at h h'; cases h; cases h'; exact ⟨rfl, _, rfl, rfl⟩
  · rw [exec_step] at h h'; cases h; cases h'; exact ⟨rfl, _, rfl, rfl⟩
  · rw [exec_gen] at h h'; cases h; cases h'; exact ⟨rfl, _, rfl, rfl⟩

theorem ks_of_exec {i : Instr} {s t : State} (h : exec i s = .next t) :
    t.ks = s.ks ++ channelBits i s.block := by
  obtain ⟨u, -, hu, -, hks, -⟩ := exec_answers i s
  obtain rfl : u = t := Host.Outcome.next.inj (hu.symm.trans h)
  exact hks

/-- Settles O29: the block left, the answer and the bits are each a function of the block before. -/
theorem onlyRegistersInfluenceACommand : Obligations.OnlyRegistersInfluenceACommand := by
  unfold Obligations.OnlyRegistersInfluenceACommand
  intro i s s' t t' hblock h h'
  obtain ⟨hleft, w, hanswer, hanswer'⟩ := exec_congr_block hblock h h'
  exact ⟨hleft, ⟨[w], hanswer, hanswer'⟩, channelBits i s.block, ks_of_exec h,
    hblock ▸ ks_of_exec h'⟩

end Sys2Proof.Machine
end

section
/-! The proofs for 60_exceptions.md: which commands fault and with what word (R100, R101), that a fault
leaves nothing but its response (R105, R106), and that no step stops (R108). -/

namespace Sys2Proof.Machine

open Sys2Proof.Safety

/-! The two faults. -/

/-- AT and SET at a position outside the register take OutOfRange (60_exceptions.md R100). -/
theorem exec_of_outOfRange {i : Instr} {r : Reg} {p : Nat} (s : State) (hp : r.width ≤ p)
    (hi : i = .atOf r p ∨ ∃ b, i = .setOf r p b) :
    exec i s = .next (takeFault .outOfRange (argField p) s) := by
  rcases hi with rfl | ⟨b, rfl⟩
  · exact exec_atOf_of_le r s hp
  · exact exec_setOf_of_le r b s hp

theorem answered_takeFault_outOfRange (p : Nat) (s : State) :
    answered s (takeFault .outOfRange (argField p) s) (faultWord 1 p) :=
  answered_of_rsps (takeFault_rsps ..) (responseWord_outOfRange p)

theorem answered_takeFault_illegalCommand (w : Word) (s : State) :
    answered s (takeFault .illegalCommand (Fields.ofWord w).arg s) (faultWord 2 w.toNat) :=
  answered_of_rsps (takeFault_rsps ..) (responseWord_illegal w)

theorem isFault_faultWord_one (p : Nat) : isFault (faultWord 1 p) = true := by
  rw [← responseWord_outOfRange, isFault_responseWord]
  exact ⟨_, _, rfl⟩

/-- The position of a decoded AT or SET is the field arg of its word (30_encoding.md R53). -/
theorem position_of_decode {hasShow : Bool} {w : Word} {i : Instr} {r : Reg} {p : Nat}
    (hd : decode hasShow w = some i) (hi : i = .atOf r p ∨ ∃ b, i = .setOf r p b) :
    p = w.toNat % 2 ^ 24 := by
  have hfields := congrArg (·.2.2.2) (commandFields_of_decode hd)
  rcases hi with rfl | ⟨b, rfl⟩ <;> simpa using hfields

/-- Settles O34: a command answered FAULT is an AT or SET out of range, which takes OutOfRange. -/
theorem onlyAtAndSetOutOfRangeFault : Obligations.OnlyAtAndSetOutOfRangeFault := by
  unfold Obligations.OnlyAtAndSetOutOfRangeFault
  intro i s
  obtain ⟨t, rsp, ht, hanswer, -⟩ := exec_answers i s
  refine ⟨t, _, ht, hanswer, fun hf => ?_, fun r p hp hi => ?_⟩
  · obtain ⟨r, p, hp, hi, rfl⟩ := outOfRange_of_isFault ht hanswer hf
    exact ⟨r, p, hp, hi, fun _ => answered_unique hanswer (answered_takeFault_outOfRange p s)⟩
  · obtain rfl := Host.Outcome.next.inj (ht.symm.trans (exec_of_outOfRange s hp hi))
    have hw := answered_unique hanswer (answered_takeFault_outOfRange p s)
    exact ⟨hw ▸ isFault_faultWord_one p, fun _ => hw⟩

/-- Settles O35: a word that decodes to nothing takes IllegalCommand, a command that faults takes
OutOfRange with its position. -/
theorem faultCarriesCauseAndInfo : Obligations.FaultCarriesCauseAndInfo := by
  unfold Obligations.FaultCarriesCauseAndInfo
  intro hasShow w rsp s t h hrsp hf
  rw [faultWord_mod, faultWord_mod]
  cases hd : decode hasShow w with
  | none =>
    rw [issue_of_illegal s hd] at h
    cases h
    exact .inl ⟨rfl, answered_unique hrsp (answered_takeFault_illegalCommand w s)⟩
  | some i =>
    rw [issue_of_decode s hd] at h
    obtain ⟨r, p, hp, hi, rfl⟩ := outOfRange_of_isFault h hrsp hf
    have hw := answered_unique hrsp (answered_takeFault_outOfRange p s)
    obtain rfl := position_of_decode hd hi
    exact .inr ⟨r, hp, by rwa [faultWord_mod] at hw, hi.imp (congrArg some)
      fun ⟨b, hb⟩ => ⟨b, congrArg some hb⟩⟩

/-! After a fault. -/

/-- Settles O37: the state after is that of `takeFault`, which appends the one response. -/
theorem faultLeavesNoTrace : Obligations.FaultLeavesNoTrace := by
  unfold Obligations.FaultLeavesNoTrace
  intro hasShow w rsp s t h hrsp hf
  obtain ⟨c, info, rfl⟩ := eq_takeFault_of_isFault h hrsp hf
  rw [answered_unique hrsp (takeFault_rsps c info s)]
  rfl

/-- What the host sees of a word on the port, a command or not, is a function of the registers. -/
theorem sameEffect_of_block_eq {hasShow : Bool} {w : Word} {s s' t t' : State}
    (hblock : s.block = s'.block) (h : issue hasShow w s = .next t)
    (h' : issue hasShow w s' = .next t') : sameEffect s t s' t' := by
  cases hd : decode hasShow w with
  | none =>
    rw [issue_of_illegal _ hd] at h h'
    cases h
    cases h'
    exact ⟨hblock, ⟨_, takeFault_rsps .., takeFault_rsps ..⟩,
      [], (List.append_nil _).symm, (List.append_nil _).symm⟩
  | some i =>
    rw [issue_of_decode _ hd] at h h'
    exact onlyRegistersInfluenceACommand i s s' t t' hblock h h'

/-- Settles O38: a fault keeps the registers, and they are all that the next word depends on. -/
theorem commandAfterFaultRunsNormally : Obligations.CommandAfterFaultRunsNormally := by
  unfold Obligations.CommandAfterFaultRunsNormally
  intro hasShow bad w rsp s t u u' hbad hrsp hf hu hu'
  obtain ⟨c, info, rfl⟩ := eq_takeFault_of_isFault hbad hrsp hf
  exact sameEffect_of_block_eq (takeFault_block c info s) hu hu'

/-- Settles O39: an idle block, a word on the port and each of the two resets answer a next state. -/
theorem stepAlwaysAnswersNext : Obligations.StepAlwaysAnswersNext := by
  unfold Obligations.StepAlwaysAnswersNext
  intro hasShow s
  cases hp : s.port with
  | none => exact ⟨s, stepOf_none hasShow hp⟩
  | some inp =>
    rw [stepOf_some hasShow hp]
    cases inp with
    | cmd w =>
      obtain ⟨t, -, -, ht, -⟩ := issue_answers hasShow w s.idle
      exact ⟨t, ht⟩
    | rst => exact ⟨_, rfl⟩
    | cmdThenRst w => exact ⟨_, rfl⟩

end Sys2Proof.Machine
end

section
/-! The proofs for 70_reset_and_hazards.md: what a reset leaves of the machine's output (R120), and that
loading the three registers makes a run independent of what they held before (R121). -/

namespace Sys2Proof.Machine

open Sys2Proof.Safety

/-! Reset. -/

/-- The bits a word puts on the channel when it is run to completion: those of its command, none when it is
no command (30_encoding.md R56). -/
def wordBits (hasShow : Bool) (w : Word) (b : Block) : List Bool :=
  ((decode hasShow w).map fun i => channelBits i b).getD []

theorem ks_of_issue {hasShow : Bool} {w : Word} {s t : State} (h : issue hasShow w s = .next t) :
    t.ks = s.ks ++ wordBits hasShow w s.block := by
  cases hd : decode hasShow w with
  | none =>
    rw [issue_of_illegal s hd] at h
    cases h
    simp [wordBits, hd]
  | some i =>
    rw [issue_of_decode s hd] at h
    simp [wordBits, hd, ks_of_exec h]

theorem stepOf_rst (hasShow : Bool) (s : State) :
    stepOf hasShow (s.present .rst) = .next (takeReset s.idle) :=
  stepOf_present hasShow s .rst

/-- Reset during a command: some first part of the command's bits is delivered, then the reset is taken. -/
theorem stepOf_cmdThenRst (hasShow : Bool) (s : State) (w : Word) :
    ∃ k, stepOf hasShow (s.present (.cmdThenRst w))
      = .next (takeReset (s.idle.emit ((wordBits hasShow w s.block).take k))) := by
  obtain ⟨k, hk⟩ := abandon_eq hasShow w s.idle
  exact ⟨k, (stepOf_present hasShow s (.cmdThenRst w)).trans (congrArg _ hk)⟩

/-- Settles O40: both resets end in `takeReset`; an abandoned command has put out the first k of the bits it
would have put out, and the rest is what `issue` adds to them. -/
theorem resetAbandonsWithoutResponse : Obligations.ResetAbandonsWithoutResponse := by
  unfold Obligations.ResetAbandonsWithoutResponse
  intro hasShow s w
  refine ⟨⟨_, stepOf_rst hasShow s, rfl, rfl, rfl, rfl⟩, ?_⟩
  obtain ⟨k, hstep⟩ := stepOf_cmdThenRst hasShow s w
  refine ⟨_, (wordBits hasShow w s.block).take k, hstep, rfl, ?_, rfl, rfl, fun u hu => ?_⟩
  · simp
  · exact ⟨(wordBits hasShow w s.block).drop k, by
      rw [ks_of_issue hu, List.append_assoc, List.take_append_drop]⟩

/-! Runs of words. -/

theorem issueAll_cons_of_next {hasShow : Bool} {w : Word} {ws : List Word} {s t : State}
    (h : issue hasShow w s = .next t) : issueAll hasShow (w :: ws) s = issueAll hasShow ws t := by
  simp [issueAll, h]

/-- A longer list goes on from where the shorter one ended. -/
theorem issueAll_append {hasShow : Bool} {a : List Word} (b : List Word) {s t : State}
    (h : issueAll hasShow a s = .next t) : issueAll hasShow (a ++ b) s = issueAll hasShow b t := by
  induction a generalizing s with
  | nil => cases h; rfl
  | cons w a ih =>
    obtain ⟨u, -, -, hu, -⟩ := issue_answers hasShow w s
    rw [issueAll_cons_of_next hu] at h
    exact (issueAll_cons_of_next hu).trans (ih h)

/-- Running the words of commands is running the commands (30_encoding.md R59). -/
theorem issueAll_map_encode {hasShow : Bool} {is : List Instr}
    (h : ∀ i ∈ is, i.wellFormed hasShow = true) (s : State) :
    issueAll hasShow (is.map encode) s = execAll is s := by
  induction is generalizing s with
  | nil => rfl
  | cons i is ih =>
    obtain ⟨u, -, hu, -⟩ := exec_answers i s
    have issued : issue hasShow (encode i) s = .next u :=
      (issue_of_decode s (decodeOfEncode hasShow i (h i List.mem_cons_self))).trans hu
    calc issueAll hasShow ((i :: is).map encode) s
        = issueAll hasShow (is.map encode) u := issueAll_cons_of_next issued
      _ = execAll is u := ih (fun j hj => h j (List.mem_cons_of_mem i hj)) u
      _ = execAll (i :: is) s := (execAll_cons_of_next hu).symm

/-! Runs that look the same from outside. -/

theorem sameEffect_of_block_eq_self {s s' : State} (h : s.block = s'.block) : sameEffect s s s' s' :=
  ⟨h, ⟨[], by simp⟩, [], by simp⟩

theorem sameEffect_trans {s u t s' u' t' : State} (hfirst : sameEffect s u s' u')
    (hsecond : sameEffect u t u' t') : sameEffect s t s' t' := by
  obtain ⟨-, ⟨ws, hws, hws'⟩, bits, hbits, hbits'⟩ := hfirst
  obtain ⟨hblock, ⟨vs, hvs, hvs'⟩, more, hmore, hmore'⟩ := hsecond
  exact ⟨hblock, ⟨ws ++ vs, by simp [hvs, hws], by simp [hvs', hws']⟩,
    bits ++ more, by simp [hmore, hbits], by simp [hmore', hbits']⟩

/-- What the host sees of a list of words is a function of the registers: by induction on the list, the
registers being equal again after every word. -/
theorem sameEffect_of_issueAll {hasShow : Bool} {ws : List Word} {s s' t t' : State}
    (hblock : s.block = s'.block) (h : issueAll hasShow ws s = .next t)
    (h' : issueAll hasShow ws s' = .next t') : sameEffect s t s' t' := by
  induction ws generalizing s s' with
  | nil =>
    cases h
    cases h'
    exact sameEffect_of_block_eq_self hblock
  | cons w ws ih =>
    obtain ⟨u, -, -, hu, -⟩ := issue_answers hasShow w s
    obtain ⟨u', -, -, hu', -⟩ := issue_answers hasShow w s'
    rw [issueAll_cons_of_next hu] at h
    rw [issueAll_cons_of_next hu'] at h'
    have hfirst := sameEffect_of_block_eq hblock hu hu'
    exact sameEffect_trans hfirst (ih hfirst.1 h h')

/-! The three LOADs. -/

/-- Every LOAD answers ACK (40_bitregister.md R60). -/
theorem rsps_of_execAll_loads (v : Reg → Nat) {loads : List Instr}
    (hloads : ∀ i ∈ loads, ∃ r, i = .loadOf r (v r)) {s t : State} (h : execAll loads s = .next t) :
    t.rsps = s.rsps ++ List.replicate loads.length ackWord := by
  induction loads generalizing s with
  | nil => cases h; simp
  | cons i is ih =>
    obtain ⟨r, rfl⟩ := hloads i List.mem_cons_self
    rw [execAll_cons_of_next (exec_loadOf r (v r) s)] at h
    rw [ih (fun i hi => hloads i (List.mem_cons_of_mem _ hi)) h, State.respond_rsps,
      State.putReg_rsps, responseWord_ack, List.append_assoc, List.length_cons, List.replicate_succ,
      List.singleton_append]

/-- LOADs that name every register leave the same registers from any two states, and the same answers. -/
theorem execAll_loads_sameEffect (v : Reg → Nat) {loads : List Instr}
    (h : ∀ i, i ∈ loads ↔ ∃ r, i = .loadOf r (v r)) (s s' : State) :
    ∃ t t', execAll loads s = .next t ∧ execAll loads s' = .next t' ∧ sameEffect s t s' t' := by
  have isLoad : ∀ i ∈ loads, ∃ r, i = .loadOf r (v r) := fun i => (h i).mp
  have named (r : Reg) : .loadOf r (v r) ∈ loads := (h _).mpr ⟨r, rfl⟩
  obtain ⟨t, ht, ⟨hks, -⟩, hget⟩ := execAll_loads v isLoad s
  obtain ⟨t', ht', ⟨hks', -⟩, hget'⟩ := execAll_loads v isLoad s'
  have hblock : t.block = t'.block :=
    Block.ext_get _ _ fun r => by rw [hget, hget', if_pos (named r), if_pos (named r)]
  exact ⟨t, t', ht, ht', hblock,
    ⟨_, rsps_of_execAll_loads v isLoad ht, rsps_of_execAll_loads v isLoad ht'⟩,
    [], by simp [hks], by simp [hks']⟩

theorem wellFormed_loadOf_iff (hasShow : Bool) (r : Reg) (v : Nat) :
    (Instr.loadOf r v).wellFormed hasShow = true ↔ v < 2 ^ 24 := by
  simp [wellFormed_iff]

/-- Settles O42: the LOADs leave equal registers and answer alike, and from equal registers the words after
them do the same. -/
theorem loadedRunsForgetEarlierContents : Obligations.LoadedRunsForgetEarlierContents := by
  unfold Obligations.LoadedRunsForgetEarlierContents
  intro hasShow vx vy vz loads ws s s' t t' hx hy hz hperm h h'
  have isLoad (i : Instr) : i ∈ loads ↔ ∃ r, i = .loadOf r (newgenValue vx vy vz r) :=
    hperm.mem_iff.trans mem_newgen_iff
  have fits (r : Reg) : newgenValue vx vy vz r < 2 ^ 24 := by
    cases r
    · exact hx
    · exact hy
    · exact hz
  have encoded : ∀ i ∈ loads, i.wellFormed hasShow = true := fun i hi => by
    obtain ⟨r, rfl⟩ := (isLoad i).mp hi
    exact (wellFormed_loadOf_iff hasShow r _).mpr (fits r)
  obtain ⟨m, m', hm, hm', loaded⟩ := execAll_loads_sameEffect _ isLoad s s'
  rw [issueAll_append ws ((issueAll_map_encode encoded s).trans hm)] at h
  rw [issueAll_append ws ((issueAll_map_encode encoded s').trans hm')] at h'
  exact sameEffect_trans loaded (sameEffect_of_issueAll loaded.1 h h')

end Sys2Proof.Machine
end

section
/-! The proof for the model's choice at operands no command word can carry (93_implementation_defined.md
V9): AT, SET and GEN answer the operand's low 24 bits. -/

namespace Sys2Proof.Machine

open Sys2Proof.Safety

theorem reg_width_lt_two_pow_24 (r : Reg) : r.width < 2 ^ 24 := by cases r <;> decide

/-- A GENDONE word takes only the low 24 bits of the length (30_encoding.md R55). -/
theorem genDoneWord_mod (n : Nat) : genDoneWord (n % 2 ^ 24) = genDoneWord n := by
  have low : n % 2 ^ 24 % 0x1000000 = n % 0x1000000 := Nat.mod_mod n 0x1000000
  rw [genDoneWord, genDoneWord, low]

/-- Settles O55: such a position is outside every register, so AT and SET take the same OutOfRange; the
FAULT and GENDONE words keep the low 24 bits of any operand. -/
theorem wideOperandsAnswerTheirLowBits : Obligations.WideOperandsAnswerTheirLowBits := by
  unfold Obligations.WideOperandsAnswerTheirLowBits
  refine ⟨fun r pos value s hpos => ?_, fun n s _ => ?_⟩
  · have outside : r.width ≤ pos := (reg_width_lt_two_pow_24 r).le.trans hpos
    rw [faultWord_mod]
    exact ⟨_, exec_atOf_of_le r s outside, exec_setOf_of_le r value s outside, takeFault_block ..,
      ⟨rfl, rfl, rfl, rfl⟩, answered_takeFault_outOfRange pos s⟩
  · obtain ⟨t, ht, -, -, hanswer⟩ := exec_gen_effect n s
    rw [genDoneWord_mod]
    exact ⟨t, ht, hanswer⟩

end Sys2Proof.Machine
end
